-- ==== Sys2Proof/Word.lean ====
section
/-! DEFINITION. The two word widths of the machine (00_scope.md R7). -/

namespace Sys2Proof

/-- A memory cell, an opcode or an 8-bit register (R7). -/
abbrev Byte := BitVec 8

/-- An address, the program counter, the stack pointer or a register pair: 16 bits, modulo 65536 (R7). -/
abbrev Word := BitVec 16

end Sys2Proof
end

