-- ==== Sys2Proof/Config.lean ====
section
/-! DEFINITION. What construction fixes before the first step: MEM_SIZE, RESET_PC and LAUNCH
(00_scope.md R8, R9, R10), and what a byte that no image sets reads as. -/

namespace Sys2Proof

/-- LAUNCH: the value of every register, flag and the latch at construction (R10). -/
structure Launch where
  a : Byte
  b : Byte
  c : Byte
  d : Byte
  e : Byte
  h : Byte
  l : Byte
  sp : Word
  z : Bool
  s : Bool
  p : Bool
  cy : Bool
  ac : Bool
  inte : Bool
  deriving DecidableEq, Repr

namespace Config

/-- The default launch values of R36, all zero (the spec's decision D9; log 3). -/
def launch : Launch :=
  { a := 0, b := 0, c := 0, d := 0, e := 0, h := 0, l := 0, sp := 0,
    z := false, s := false, p := false, cy := false, ac := false, inte := false }

/-- The default RESET_PC (R9; log 3). -/
def resetPc : Word := 0x0000

/-- MEM_SIZE of `State.reset`. DESIGN CHOICE (log 1): R8 leaves it open between 1 and 65536, and every
statement about a state is quantified over the size of its buffer. -/
def memSize : Nat := 65536

/-- The largest MEM_SIZE: as many bytes as a 16-bit address can name (R8). -/
def maxMemSize : Nat := 65536

/-- What an in-bounds byte that memory does not list reads as. DESIGN CHOICE (log 2): R30 has the loader's
image fix every byte, so this only says which bytes of an image need not be written down. -/
def unlistedByte : Byte := 0x00

end Config

end Sys2Proof
end

