-- ==== Sys2Proof/Syntax.lean ====
section
/-! DEFINITION. Instructions as syntax: the selectors of 30_encoding.md, one constructor of `Instr` for each
mnemonic of the opcode table, the class and fields of each (`Form`), formats and lengths, and a `Line`: an
instruction with its operand bytes, in the assembler syntax of R84. -/

namespace Sys2Proof

/-- The seven 8-bit registers (10_state.md R21, R22). -/
inductive Reg8 where
  | b | c | d | e | h | l | a
  deriving DecidableEq, Repr

/-- The 8-bit operand selector r of R73: a register, or M, the memory byte at HL (42_alu8.md R130). -/
inductive Operand8 where
  | reg (r : Reg8)
  | m
  deriving DecidableEq, Repr

/-- The pair selector rp of R24 and R74. -/
inductive RegPair where
  | bc | de | hl | sp
  deriving DecidableEq, Repr

/-- The condition selector ccc of R75. -/
inductive Cond where
  | nz | z | nc | c | po | pe | p | m
  deriving DecidableEq, Repr

/-- The implemented ALU operations of R76. -/
inductive AluOp where
  | add | adc | sub | sbb
  deriving DecidableEq, Repr

/-- The implemented immediate operations of R76. There is no fourth: 0xDE is unimplemented. -/
inductive ImmOp where
  | adi | aci | sui
  deriving DecidableEq, Repr

/-- The instructions: one constructor for each mnemonic of the opcode table. The 181 rows of mnemonic UNIMPLEMENTED
are one constructor that carries the opcode byte (log 8). Operand bytes are not part of it, because decode reads the opcode
byte only (R80) and the handler fetches its own operand bytes (R104; log 4). -/
inductive Instr where
  | addB | addC | addD | addE | addH | addL | addM | addA
  | adcB | adcC | adcD | adcE | adcH | adcL | adcM | adcA
  | subB | subC | subD | subE | subH | subL | subM | subA
  | sbbB | sbbC | sbbD | sbbE | sbbH | sbbL | sbbM | sbbA
  | adi | aci | sui
  | inrB | inrC | inrD | inrE | inrH | inrL | inrM | inrA
  | dcrB | dcrC | dcrD | dcrE | dcrH | dcrL | dcrM | dcrA
  | inxB | inxD | inxH | inxSp
  | dcxB | dcxD | dcxH | dcxSp
  | dadB | dadD | dadH | dadSp
  | jmp | jnz | jz | jnc | jc | jpo | jpe | jp | jm
  | hlt | ei | di
  | unimplemented (opcode : Byte)
  deriving DecidableEq, Repr

/-- An opcode's class and fields, as R72 lists the classes. -/
inductive Form where
  | alu (f : AluOp) (o : Operand8)
  | aluImm (f : ImmOp)
  | inr (o : Operand8)
  | dcr (o : Operand8)
  | inx (rp : RegPair)
  | dcx (rp : RegPair)
  | dad (rp : RegPair)
  | jmp
  | jcc (cc : Cond)
  | hlt
  | ei
  | di
  | unimplemented (opcode : Byte)
  deriving DecidableEq, Repr

/-- The class and fields of each instruction. -/
def Instr.form : Instr → Form
  | .addB => .alu .add (.reg .b)
  | .addC => .alu .add (.reg .c)
  | .addD => .alu .add (.reg .d)
  | .addE => .alu .add (.reg .e)
  | .addH => .alu .add (.reg .h)
  | .addL => .alu .add (.reg .l)
  | .addM => .alu .add .m
  | .addA => .alu .add (.reg .a)
  | .adcB => .alu .adc (.reg .b)
  | .adcC => .alu .adc (.reg .c)
  | .adcD => .alu .adc (.reg .d)
  | .adcE => .alu .adc (.reg .e)
  | .adcH => .alu .adc (.reg .h)
  | .adcL => .alu .adc (.reg .l)
  | .adcM => .alu .adc .m
  | .adcA => .alu .adc (.reg .a)
  | .subB => .alu .sub (.reg .b)
  | .subC => .alu .sub (.reg .c)
  | .subD => .alu .sub (.reg .d)
  | .subE => .alu .sub (.reg .e)
  | .subH => .alu .sub (.reg .h)
  | .subL => .alu .sub (.reg .l)
  | .subM => .alu .sub .m
  | .subA => .alu .sub (.reg .a)
  | .sbbB => .alu .sbb (.reg .b)
  | .sbbC => .alu .sbb (.reg .c)
  | .sbbD => .alu .sbb (.reg .d)
  | .sbbE => .alu .sbb (.reg .e)
  | .sbbH => .alu .sbb (.reg .h)
  | .sbbL => .alu .sbb (.reg .l)
  | .sbbM => .alu .sbb .m
  | .sbbA => .alu .sbb (.reg .a)
  | .adi => .aluImm .adi
  | .aci => .aluImm .aci
  | .sui => .aluImm .sui
  | .inrB => .inr (.reg .b)
  | .inrC => .inr (.reg .c)
  | .inrD => .inr (.reg .d)
  | .inrE => .inr (.reg .e)
  | .inrH => .inr (.reg .h)
  | .inrL => .inr (.reg .l)
  | .inrM => .inr .m
  | .inrA => .inr (.reg .a)
  | .dcrB => .dcr (.reg .b)
  | .dcrC => .dcr (.reg .c)
  | .dcrD => .dcr (.reg .d)
  | .dcrE => .dcr (.reg .e)
  | .dcrH => .dcr (.reg .h)
  | .dcrL => .dcr (.reg .l)
  | .dcrM => .dcr .m
  | .dcrA => .dcr (.reg .a)
  | .inxB => .inx .bc
  | .inxD => .inx .de
  | .inxH => .inx .hl
  | .inxSp => .inx .sp
  | .dcxB => .dcx .bc
  | .dcxD => .dcx .de
  | .dcxH => .dcx .hl
  | .dcxSp => .dcx .sp
  | .dadB => .dad .bc
  | .dadD => .dad .de
  | .dadH => .dad .hl
  | .dadSp => .dad .sp
  | .jmp => .jmp
  | .jnz => .jcc .nz
  | .jz => .jcc .z
  | .jnc => .jcc .nc
  | .jc => .jcc .c
  | .jpo => .jcc .po
  | .jpe => .jcc .pe
  | .jp => .jcc .p
  | .jm => .jcc .m
  | .hlt => .hlt
  | .ei => .ei
  | .di => .di
  | .unimplemented op => .unimplemented op

/-- The three formats of R71: opcode alone, opcode and d8, opcode and a16. -/
inductive Format where
  | f1 | f2 | f3
  deriving DecidableEq, Repr

/-- The format of each class (R71). An unimplemented opcode has F1 there only to make that table total. -/
def Form.format : Form → Format
  | .alu _ _ => .f1
  | .aluImm _ => .f2
  | .inr _ => .f1
  | .dcr _ => .f1
  | .inx _ => .f1
  | .dcx _ => .f1
  | .dad _ => .f1
  | .jmp => .f3
  | .jcc _ => .f3
  | .hlt => .f1
  | .ei => .f1
  | .di => .f1
  | .unimplemented _ => .f1

/-- The length in bytes of a format (R71). -/
def Format.length : Format → Nat
  | .f1 => 1
  | .f2 => 2
  | .f3 => 3

/-- The length in bytes of an instruction (R83). -/
def Instr.length (i : Instr) : Nat := i.form.format.length

/-- The operand bytes that follow an opcode (R77): none, an immediate d8, or a target a16. -/
inductive Operand where
  | none
  | d8 (v : Byte)
  | a16 (v : Word)
  deriving DecidableEq, Repr

/-- An instruction with its operand bytes: one line of assembler text (R84). -/
structure Line where
  instr : Instr
  operand : Operand
  deriving DecidableEq, Repr

/-! Assembler spelling (R84). A byte that is no instruction can only be placed by `DB` (R85). -/

def Reg8.asm : Reg8 → String
  | .b => "B"
  | .c => "C"
  | .d => "D"
  | .e => "E"
  | .h => "H"
  | .l => "L"
  | .a => "A"

def Operand8.asm : Operand8 → String
  | .reg r => r.asm
  | .m => "M"

def RegPair.asm : RegPair → String
  | .bc => "B"
  | .de => "D"
  | .hl => "H"
  | .sp => "SP"

def Cond.asm : Cond → String
  | .nz => "NZ"
  | .z => "Z"
  | .nc => "NC"
  | .c => "C"
  | .po => "PO"
  | .pe => "PE"
  | .p => "P"
  | .m => "M"

def AluOp.asm : AluOp → String
  | .add => "ADD"
  | .adc => "ADC"
  | .sub => "SUB"
  | .sbb => "SBB"

def ImmOp.asm : ImmOp → String
  | .adi => "ADI"
  | .aci => "ACI"
  | .sui => "SUI"

/-- The mnemonic and the operands that the opcode byte fixes. -/
def Form.asm : Form → String
  | .alu f o => f.asm ++ " " ++ o.asm
  | .aluImm f => f.asm
  | .inr o => "INR " ++ o.asm
  | .dcr o => "DCR " ++ o.asm
  | .inx rp => "INX " ++ rp.asm
  | .dcx rp => "DCX " ++ rp.asm
  | .dad rp => "DAD " ++ rp.asm
  | .jmp => "JMP"
  | .jcc cc => "J" ++ cc.asm
  | .hlt => "HLT"
  | .ei => "EI"
  | .di => "DI"
  | .unimplemented op => "DB " ++ toString op.toNat

/-- A line as text, its constant in decimal. -/
def Line.asm (x : Line) : String :=
  match x.operand with
  | .none => x.instr.form.asm
  | .d8 v => x.instr.form.asm ++ " " ++ toString v.toNat
  | .a16 v => x.instr.form.asm ++ " " ++ toString v.toNat

end Sys2Proof
end

