-- ==== Sys2Proof/Machine/State.lean ====
section
/-! DEFINITION. The Machine State of 10_state.md R20 as plain data, the reasons a step can fail (60_exceptions.md R230),
and the state after construction with the default parameters (R36, R260). -/

namespace Sys2Proof.Machine

/-- The five flags, each its own bit (R27, R28). There is no packed flag byte (R37). -/
structure Flags where
  z : Bool
  s : Bool
  p : Bool
  cy : Bool
  ac : Bool
  deriving DecidableEq, Repr

/-- The memory buffer (R30): its fixed length MEM_SIZE (R8; log 1), and the bytes that differ from
`Config.unlistedByte`, by strictly rising address (log 2). -/
structure Memory where
  size : Nat
  cells : List Host.Cell
  deriving DecidableEq, Repr

/-- The Machine State: exactly the tuple of R20. -/
structure State where
  a : Byte
  b : Byte
  c : Byte
  d : Byte
  e : Byte
  h : Byte
  l : Byte
  sp : Word
  pc : Word
  flags : Flags
  inte : Bool
  mem : Memory
  deriving DecidableEq, Repr

/-- The two reasons a step fails, with the data each records (R230). A failed step changes nothing (R235), and a model
treats it as a fault (R246; log 6). -/
inductive Fault where
  /-- Raised by the unimplemented-opcode handler, for the 181 opcode values outside R78 (R231). Safe: the machine stops
  there too, with the same record. -/
  | unimplementedOpcode (opcode : Byte) (pc : Word)
  /-- Raised by any access at an address that is MEM_SIZE or more (R232): the opcode fetch (then `opcode` is none), an operand
  fetch, or M. Safe: the machine stops there too, with the same record. -/
  | outOfBoundsMemoryAccess (address : Word) (pc : Word) (opcode : Option Byte)
  deriving DecidableEq, Repr

/-- What a model may refuse. Nothing of this model answers with it. -/
inductive Refusal where
  /-- Raised by an arm of `exec` whose instruction has no meaning yet; no arm is such an arm. Safe. -/
  | notModelled (mnemonic : String)
  deriving DecidableEq, Repr

/-- The outcome of a step or a meaning in the host's form. -/
abbrev Result := Host.Outcome State Fault Refusal

/-- The last two moves of construction (R260): every register, flag and the latch at its launch value, and PC at
RESET_PC, over a given memory. -/
def State.launch (memory : Memory) (resetPc : Word) (v : Launch) : State :=
  { a := v.a, b := v.b, c := v.c, d := v.d, e := v.e, h := v.h, l := v.l, sp := v.sp, pc := resetPc,
    flags := { z := v.z, s := v.s, p := v.p, cy := v.cy, ac := v.ac }, inte := v.inte, mem := memory }

/-- The state after construction with the default parameters (R36), and an image of zeros (log 1, log 2, log 3). -/
def State.reset : State :=
  State.launch { size := Config.memSize, cells := [] } Config.resetPc Config.launch

end Sys2Proof.Machine
end

