-- ==== Sys2Proof/Machine/Flags.lean ====
section
/-! DEFINITION. The Flag Evaluator (41_flags.md): its four results, the three update scopes, and the conditions of the
conditional jumps (30_encoding.md R75). -/

namespace Sys2Proof.Machine

/-- How many of a byte's bits are 1. -/
def onesCount (v : Byte) : Nat := ((List.range 8).map fun k => (v.getLsbD k).toNat).sum

/-- parity8: 1 iff the byte has an even number of 1 bits (R17, R123). -/
def parity8 (v : Byte) : Bool := onesCount v % 2 == 0

/-- The operation's width and class, on which its carry depends (R124, R125, R126). -/
inductive CarryClass where
  | add8 | sub8 | add16
  deriving DecidableEq, Repr

/-- The four results of `evaluate`. -/
structure FlagResults where
  zero : Bool
  sign : Bool
  parity : Bool
  carry : Bool
  deriving DecidableEq, Repr

/-- Carry of the unbounded intermediate t: out of 8 bits (R124), borrow (R125), out of 16 bits (R126). -/
def carryOf (t : Int) : CarryClass → Bool
  | .add8 => decide (t > 255)
  | .sub8 => decide (t < 0)
  | .add16 => decide (t > 65535)

/-- The evaluator, a pure function of the intermediate before truncation (R120 to R126). -/
def evaluate (t : Int) (cls : CarryClass) : FlagResults :=
  let v := BitVec.ofInt 8 t
  { zero := decide (v = 0), sign := v.getLsbD 7, parity := parity8 v, carry := carryOf t cls }

/-- Scope ARITH8 of R127: Z, S, P and CY. -/
def arith8 (t : Int) (cls : CarryClass) (f : Flags) : Flags :=
  let r := evaluate t cls
  { f with z := r.zero, s := r.sign, p := r.parity, cy := r.carry }

/-- Scope INCDEC8 of R127: Z, S and P. CY is kept, so the carry class does not matter. -/
def incDec8 (t : Int) (f : Flags) : Flags :=
  let r := evaluate t .add8
  { f with z := r.zero, s := r.sign, p := r.parity }

/-- Scope CARRY16 of R127: CY alone. -/
def carry16 (t : Int) (f : Flags) : Flags :=
  { f with cy := (evaluate t .add16).carry }

/-- When each condition is true (R75). -/
def condHolds (f : Flags) : Cond → Bool
  | .nz => !f.z
  | .z => f.z
  | .nc => !f.cy
  | .c => f.cy
  | .po => !f.p
  | .pe => f.p
  | .p => !f.s
  | .m => f.s

end Sys2Proof.Machine
end

