-- ==== Sys2Proof/WellFormed.lean ====
section
/-! DEFINITION. Which instructions and lines are well formed: an unimplemented opcode is none of the 75 values of
30_encoding.md R78, and a line carries the operand its format has (R71). -/

namespace Sys2Proof

/-- The 75 implemented opcode values, in the order and classes of R78 (log 18). -/
def implementedOpcodes : List Byte :=
  [0x80#8, 0x81#8, 0x82#8, 0x83#8, 0x84#8, 0x85#8, 0x86#8, 0x87#8] ++
  [0x88#8, 0x89#8, 0x8A#8, 0x8B#8, 0x8C#8, 0x8D#8, 0x8E#8, 0x8F#8] ++
  [0x90#8, 0x91#8, 0x92#8, 0x93#8, 0x94#8, 0x95#8, 0x96#8, 0x97#8] ++
  [0x98#8, 0x99#8, 0x9A#8, 0x9B#8, 0x9C#8, 0x9D#8, 0x9E#8, 0x9F#8] ++
  [0xC6#8, 0xCE#8, 0xD6#8] ++
  [0x04#8, 0x0C#8, 0x14#8, 0x1C#8, 0x24#8, 0x2C#8, 0x34#8, 0x3C#8] ++
  [0x05#8, 0x0D#8, 0x15#8, 0x1D#8, 0x25#8, 0x2D#8, 0x35#8, 0x3D#8] ++
  [0x03#8, 0x13#8, 0x23#8, 0x33#8] ++
  [0x0B#8, 0x1B#8, 0x2B#8, 0x3B#8] ++
  [0x09#8, 0x19#8, 0x29#8, 0x39#8] ++
  [0xC3#8, 0xC2#8, 0xCA#8, 0xD2#8, 0xDA#8, 0xE2#8, 0xEA#8, 0xF2#8, 0xFA#8] ++
  [0x76#8, 0xF3#8, 0xFB#8]

/-- Is this opcode value one of the 75? -/
def isImplemented (op : Byte) : Bool := implementedOpcodes.contains op

/-- A class is well formed unless it calls an implemented opcode unimplemented (R81, R213). -/
def Form.wf : Form → Bool
  | .alu _ _ => true
  | .aluImm _ => true
  | .inr _ => true
  | .dcr _ => true
  | .inx _ => true
  | .dcx _ => true
  | .dad _ => true
  | .jmp => true
  | .jcc _ => true
  | .hlt => true
  | .ei => true
  | .di => true
  | .unimplemented op => !isImplemented op

/-- An instruction is well formed when its class is. -/
def Instr.wf (i : Instr) : Bool := i.form.wf

/-- Does an operand have the bytes a format asks for (R71)? -/
def Operand.fits : Operand → Format → Bool
  | .none, .f1 => true
  | .none, .f2 => false
  | .none, .f3 => false
  | .d8 _, .f1 => false
  | .d8 _, .f2 => true
  | .d8 _, .f3 => false
  | .a16 _, .f1 => false
  | .a16 _, .f2 => false
  | .a16 _, .f3 => true

/-- A line is well formed when its instruction is and its operand fits the instruction's format. -/
def Line.wf (x : Line) : Bool := x.instr.wf && x.operand.fits x.instr.form.format

end Sys2Proof
end

