-- ==== Sys2Proof/Decode.lean ====
section
/-! DEFINITION. The decoder and the encoder of 30_encoding.md. The decoder goes from the opcode byte, through its fields
(R72 to R76), to one of the 76 handlers (R80). The encoder lays the fields out again from the same tables. The opcode bytes,
fields and codes are the Intel 8080's, as the spec itself marks (log 9). -/

namespace Sys2Proof

/-! From fields to instructions. -/

/-- The instruction of each operation and operand of the class ALU r. -/
def AluOp.instr : AluOp → Operand8 → Instr
  | .add, .reg .b => .addB
  | .add, .reg .c => .addC
  | .add, .reg .d => .addD
  | .add, .reg .e => .addE
  | .add, .reg .h => .addH
  | .add, .reg .l => .addL
  | .add, .m => .addM
  | .add, .reg .a => .addA
  | .adc, .reg .b => .adcB
  | .adc, .reg .c => .adcC
  | .adc, .reg .d => .adcD
  | .adc, .reg .e => .adcE
  | .adc, .reg .h => .adcH
  | .adc, .reg .l => .adcL
  | .adc, .m => .adcM
  | .adc, .reg .a => .adcA
  | .sub, .reg .b => .subB
  | .sub, .reg .c => .subC
  | .sub, .reg .d => .subD
  | .sub, .reg .e => .subE
  | .sub, .reg .h => .subH
  | .sub, .reg .l => .subL
  | .sub, .m => .subM
  | .sub, .reg .a => .subA
  | .sbb, .reg .b => .sbbB
  | .sbb, .reg .c => .sbbC
  | .sbb, .reg .d => .sbbD
  | .sbb, .reg .e => .sbbE
  | .sbb, .reg .h => .sbbH
  | .sbb, .reg .l => .sbbL
  | .sbb, .m => .sbbM
  | .sbb, .reg .a => .sbbA

/-- The INR instruction of each operand. -/
def Operand8.inr : Operand8 → Instr
  | .reg .b => .inrB
  | .reg .c => .inrC
  | .reg .d => .inrD
  | .reg .e => .inrE
  | .reg .h => .inrH
  | .reg .l => .inrL
  | .m => .inrM
  | .reg .a => .inrA

/-- The DCR instruction of each operand. -/
def Operand8.dcr : Operand8 → Instr
  | .reg .b => .dcrB
  | .reg .c => .dcrC
  | .reg .d => .dcrD
  | .reg .e => .dcrE
  | .reg .h => .dcrH
  | .reg .l => .dcrL
  | .m => .dcrM
  | .reg .a => .dcrA

/-- The INX instruction of each operand. -/
def RegPair.inx : RegPair → Instr
  | .bc => .inxB
  | .de => .inxD
  | .hl => .inxH
  | .sp => .inxSp

/-- The DCX instruction of each operand. -/
def RegPair.dcx : RegPair → Instr
  | .bc => .dcxB
  | .de => .dcxD
  | .hl => .dcxH
  | .sp => .dcxSp

/-- The DAD instruction of each operand. -/
def RegPair.dad : RegPair → Instr
  | .bc => .dadB
  | .de => .dadD
  | .hl => .dadH
  | .sp => .dadSp

/-- The conditional jump of each condition. -/
def Cond.jcc : Cond → Instr
  | .nz => .jnz
  | .z => .jz
  | .nc => .jnc
  | .c => .jc
  | .po => .jpo
  | .pe => .jpe
  | .p => .jp
  | .m => .jm

/-- The immediate instruction of each operation. -/
def ImmOp.instr : ImmOp → Instr
  | .adi => .adi
  | .aci => .aci
  | .sui => .sui

/-- The instruction of a class and its fields. -/
def Form.instr : Form → Instr
  | .alu f o => f.instr o
  | .aluImm f => f.instr
  | .inr o => o.inr
  | .dcr o => o.dcr
  | .inx rp => rp.inx
  | .dcx rp => rp.dcx
  | .dad rp => rp.dad
  | .jmp => .jmp
  | .jcc cc => cc.jcc
  | .hlt => .hlt
  | .ei => .ei
  | .di => .di
  | .unimplemented op => .unimplemented op

/-! The code tables, R73 to R76. -/

/-- R73, read from a code: ddd and sss. -/
def operand8OfCode (code : BitVec 3) : Operand8 :=
  match code.toNat with
  | 0b000 => .reg .b
  | 0b001 => .reg .c
  | 0b010 => .reg .d
  | 0b011 => .reg .e
  | 0b100 => .reg .h
  | 0b101 => .reg .l
  | 0b110 => .m
  | _ => .reg .a

/-- R73, the code of an operand. -/
def Operand8.code : Operand8 → BitVec 3
  | .reg .b => 0b000
  | .reg .c => 0b001
  | .reg .d => 0b010
  | .reg .e => 0b011
  | .reg .h => 0b100
  | .reg .l => 0b101
  | .m => 0b110
  | .reg .a => 0b111

/-- R74, read from a code: pp. -/
def regPairOfCode (code : BitVec 2) : RegPair :=
  match code.toNat with
  | 0b00 => .bc
  | 0b01 => .de
  | 0b10 => .hl
  | _ => .sp

/-- R74, the code of a pair. -/
def RegPair.code : RegPair → BitVec 2
  | .bc => 0b00
  | .de => 0b01
  | .hl => 0b10
  | .sp => 0b11

/-- R75, read from a code: ccc. -/
def condOfCode (code : BitVec 3) : Cond :=
  match code.toNat with
  | 0b000 => .nz
  | 0b001 => .z
  | 0b010 => .nc
  | 0b011 => .c
  | 0b100 => .po
  | 0b101 => .pe
  | 0b110 => .p
  | _ => .m

/-- R75, the code of a condition. -/
def Cond.code : Cond → BitVec 3
  | .nz => 0b000
  | .z => 0b001
  | .nc => 0b010
  | .c => 0b011
  | .po => 0b100
  | .pe => 0b101
  | .p => 0b110
  | .m => 0b111

/-- R76, the r-form read from a code ooo. Codes 100 to 111 are unimplemented. -/
def aluOpOfCode (code : BitVec 3) : Option AluOp :=
  match code.toNat with
  | 0b000 => some .add
  | 0b001 => some .adc
  | 0b010 => some .sub
  | 0b011 => some .sbb
  | _ => none

/-- R76, the code of an operation. -/
def AluOp.code : AluOp → BitVec 3
  | .add => 0b000
  | .adc => 0b001
  | .sub => 0b010
  | .sbb => 0b011

/-- R76, the immediate form read from a code ooo. Code 011 (0xDE) and codes 100 to 111 are unimplemented. -/
def immOpOfCode (code : BitVec 3) : Option ImmOp :=
  match code.toNat with
  | 0b000 => some .adi
  | 0b001 => some .aci
  | 0b010 => some .sui
  | _ => none

/-- R76, the code of an immediate operation. -/
def ImmOp.code : ImmOp → BitVec 3
  | .adi => 0b000
  | .aci => 0b001
  | .sui => 0b010

/-! Decoding one opcode byte. -/

/-- Group 00 of R72: INR, DCR, INX, DCX and DAD, by the low field. -/
def decodeGroup00 (high low : BitVec 3) : Option Form :=
  match low.toNat with
  | 0b100 => some (.inr (operand8OfCode high))
  | 0b101 => some (.dcr (operand8OfCode high))
  | 0b011 => some (if high.getLsbD 0 then .dcx (regPairOfCode (high.extractLsb' 1 2)) else .inx (regPairOfCode (high.extractLsb' 1 2)))
  | 0b001 => if high.getLsbD 0 then some (.dad (regPairOfCode (high.extractLsb' 1 2))) else none
  | _ => none

/-- Group 01 of R72: HLT alone. Every other byte of the group is unimplemented (R73, R81). -/
def decodeGroup01 (high low : BitVec 3) : Option Form :=
  if high = 0b110 ∧ low = 0b110 then some .hlt else none

/-- Group 10 of R72: the class ALU r. -/
def decodeGroup10 (high low : BitVec 3) : Option Form :=
  (aluOpOfCode high).map fun f => .alu f (operand8OfCode low)

/-- Group 11 of R72: the immediate class, JMP, Jcc, DI and EI. -/
def decodeGroup11 (high low : BitVec 3) : Option Form :=
  match low.toNat with
  | 0b110 => (immOpOfCode high).map .aluImm
  | 0b010 => some (.jcc (condOfCode high))
  | 0b011 =>
    match high.toNat with
    | 0b000 => some .jmp
    | 0b110 => some .di
    | 0b111 => some .ei
    | _ => none
  | _ => none

/-- The class and fields of an opcode byte, split as R72 splits it, or none where it is unimplemented. -/
def decodeForm (op : Byte) : Option Form :=
  let high := op.extractLsb' 3 3
  let low := op.extractLsb' 0 3
  match (op.extractLsb' 6 2).toNat with
  | 0b00 => decodeGroup00 high low
  | 0b01 => decodeGroup01 high low
  | 0b10 => decodeGroup10 high low
  | _ => decodeGroup11 high low

/-- DECODE (R80, R103): total, every opcode byte to exactly one handler. It looks at no other byte. -/
def decodeOpcode (op : Byte) : Instr :=
  match decodeForm op with
  | some f => f.instr
  | none => .unimplemented op

/-! Decoding a line: an opcode with its operand bytes. -/

/-- Why a list of bytes is not a whole line. -/
inductive DecodeError where
  /-- There is no opcode byte. -/
  | noOpcode
  /-- Of the instruction's bytes, its format's length, only some are there. -/
  | missingOperandBytes (needed got : Nat)
  deriving DecidableEq, Repr

/-- The 16-bit value of two bytes, high byte first (R13). -/
def wordOfBytes (hi lo : Byte) : Word := hi ++ lo

/-- The high byte of a word (R14, R23). -/
def Word.high (w : Word) : Byte := w.extractLsb' 8 8

/-- The low byte of a word (R14, R23). -/
def Word.low (w : Word) : Byte := w.extractLsb' 0 8

/-- The operand a format takes from the bytes after the opcode, and the bytes it leaves. A target's low byte
comes first (R53, R77). -/
def decodeOperand : Format → List Byte → Option (Operand × List Byte)
  | .f1, rest => some (.none, rest)
  | .f2, v :: rest => some (.d8 v, rest)
  | .f2, [] => none
  | .f3, lo :: hi :: rest => some (.a16 (wordOfBytes hi lo), rest)
  | .f3, [_] => none
  | .f3, [] => none

/-- The line at the head of a list of bytes, and the bytes after it (R70, R71). -/
def decode : List Byte → Except DecodeError (Line × List Byte)
  | [] => .error .noOpcode
  | op :: rest =>
    match decodeOperand (decodeOpcode op).form.format rest with
    | some (operand, rest') => .ok (⟨decodeOpcode op, operand⟩, rest')
    | none => .error (.missingOperandBytes (decodeOpcode op).length (1 + rest.length))

/-! Encoding. -/

/-- The opcode byte of a class and its fields, as R72 lays them out. -/
def Form.opcode : Form → Byte
  | .alu f o => 0b10#2 ++ f.code ++ o.code
  | .aluImm f => 0b11#2 ++ f.code ++ 0b110#3
  | .inr o => 0b00#2 ++ o.code ++ 0b100#3
  | .dcr o => 0b00#2 ++ o.code ++ 0b101#3
  | .inx rp => 0b00#2 ++ rp.code ++ 0b0011#4
  | .dcx rp => 0b00#2 ++ rp.code ++ 0b1011#4
  | .dad rp => 0b00#2 ++ rp.code ++ 0b1001#4
  | .jmp => 0b11000011
  | .jcc cc => 0b11#2 ++ cc.code ++ 0b010#3
  | .hlt => 0b01110110
  | .ei => 0b11111011
  | .di => 0b11110011
  | .unimplemented op => op

/-- The opcode byte of an instruction. -/
def encodeOpcode (i : Instr) : Byte := i.form.opcode

/-- The bytes of an operand, a target's low byte first (R53, R71). -/
def Operand.bytes : Operand → List Byte
  | .none => []
  | .d8 v => [v]
  | .a16 v => [Word.low v, Word.high v]

/-- The bytes of a line, in the order of their addresses (R71). -/
def encode (x : Line) : List Byte := encodeOpcode x.instr :: x.operand.bytes

/-! The opcode table's numbering of bits. -/

/-- The three bytes, first byte first, of an instruction whose bits below `nbits` are those of `w` and whose
other bits are 0. Three bytes are the longest instruction (R83). -/
def tableBytes (nbits w : Nat) : List Byte :=
  let v := w % 2 ^ nbits
  [BitVec.ofNat 8 v, BitVec.ofNat 8 (v / 2 ^ 8), BitVec.ofNat 8 (v / 2 ^ 16)]

/-- The instruction the decoder reads from a word numbered as the opcode table numbers it. -/
def decodeTableWord (nbits w : Nat) : Option Instr :=
  match decode (tableBytes nbits w) with
  | .ok (x, _) => some x.instr
  | .error _ => none

end Sys2Proof
end

