-- ==== Sys2Proof/Machine/Ops.lean ====
section
/-! DEFINITION. The operations every handler is written over: register access, bounds-checked memory access, operand
fetch, raising a failure, and the Dispatch Engine's treatment of what a handler returns (40_dispatch.md R104 to R107). -/

namespace Sys2Proof.Machine

/-! Registers (00_scope.md R14). -/

/-- Reading an 8-bit register. -/
def State.reg (s : State) : Reg8 → Byte
  | .b => s.b
  | .c => s.c
  | .d => s.d
  | .e => s.e
  | .h => s.h
  | .l => s.l
  | .a => s.a

/-- Writing an 8-bit register. -/
def State.setReg (s : State) (r : Reg8) (v : Byte) : State :=
  match r with
  | .b => { s with b := v }
  | .c => { s with c := v }
  | .d => { s with d := v }
  | .e => { s with e := v }
  | .h => { s with h := v }
  | .l => { s with l := v }
  | .a => { s with a := v }

/-- Reading a pair, its first register the high byte, or SP (R23, R24, R170). -/
def State.rp (s : State) : RegPair → Word
  | .bc => wordOfBytes s.b s.c
  | .de => wordOfBytes s.d s.e
  | .hl => wordOfBytes s.h s.l
  | .sp => s.sp

/-- Writing a pair, which is writing its two registers, or SP (R23, R24, R170). -/
def State.setRp (s : State) (rp : RegPair) (v : Word) : State :=
  match rp with
  | .bc => { s with b := Word.high v, c := Word.low v }
  | .de => { s with d := Word.high v, e := Word.low v }
  | .hl => { s with h := Word.high v, l := Word.low v }
  | .sp => { s with sp := v }

/-- Writing PC. -/
def State.setPc (s : State) (v : Word) : State := { s with pc := v }

/-- Writing the flags. -/
def State.setFlags (s : State) (v : Flags) : State := { s with flags := v }

/-- Writing the interrupt-enable latch. -/
def State.setInte (s : State) (v : Bool) : State := { s with inte := v }

/-- Replacing the memory buffer. -/
def State.setMem (s : State) (v : Memory) : State := { s with mem := v }

/-! The memory buffer (20_memory.md), one byte at a time (R55). -/

/-- The byte a list of cells holds at an address. -/
def cellsRead : List Host.Cell → Nat → Byte
  | [], _ => Config.unlistedByte
  | (k, v) :: rest, a => if a = k then v else cellsRead rest a

/-- A list of cells with one byte stored, in canonical form when the list was. -/
def cellsWrite : List Host.Cell → Nat → Byte → List Host.Cell
  | [], a, v => if v = Config.unlistedByte then [] else [(a, v)]
  | (k, w) :: rest, a, v =>
    if a < k then (if v = Config.unlistedByte then (k, w) :: rest else (a, v) :: (k, w) :: rest)
    else if a = k then (if v = Config.unlistedByte then rest else (a, v) :: rest)
    else (k, w) :: cellsWrite rest a v

/-- The byte at an address of the buffer. -/
def Memory.read (m : Memory) (a : Nat) : Byte := cellsRead m.cells a

/-- The buffer with one byte stored. -/
def Memory.write (m : Memory) (a : Nat) (v : Byte) : Memory := { m with cells := cellsWrite m.cells a v }

/-- The canonical form: a legal MEM_SIZE (R8), addresses strictly rising and inside the buffer, and no cell that equals
what an unlisted address reads as. -/
abbrev Memory.wf (m : Memory) : Prop :=
  (1 ≤ m.size ∧ m.size ≤ Config.maxMemSize) ∧ m.cells.Pairwise (fun x y => x.1 < y.1) ∧
    ∀ x ∈ m.cells, x.1 < m.size ∧ x.2 ≠ Config.unlistedByte

/-- Is an address inside the buffer (R51)? -/
def State.inBounds (s : State) (addr : Word) : Bool := decide (addr.toNat < s.mem.size)

/-- The byte a state's memory holds at an address. -/
def State.byteAt (s : State) (addr : Word) : Byte := s.mem.read addr.toNat

/-- A state with one byte of memory stored. -/
def State.setByte (s : State) (addr : Word) (v : Byte) : State := s.setMem (s.mem.write addr.toNat v)

/-! Failing (60_exceptions.md R235, R236): the one way a step fails. There is no vector, no saved register and no mode to
change. What is raised carries its record and no state, so every write of the step is discarded (R106). -/

/-- Raise UnimplementedOpcode with the current PC (R231). -/
def raiseUnimplemented {α : Type} (opcode : Byte) (s : State) : Except Fault α :=
  .error (.unimplementedOpcode opcode s.pc)

/-- Raise OutOfBoundsMemoryAccess with the current PC (R232). During a step PC is still the address of the
opcode byte (R109). -/
def raiseOutOfBounds {α : Type} (addr : Word) (opcode : Option Byte) (s : State) : Except Fault α :=
  .error (.outOfBoundsMemoryAccess addr s.pc opcode)

/-- MemRead(addr, 1) (R15, R51). -/
def memRead (addr : Word) (opcode : Option Byte) (s : State) : Except Fault Byte :=
  if s.inBounds addr then .ok (s.byteAt addr) else raiseOutOfBounds addr opcode s

/-- MemWrite(addr, 1, v) (R15, R52). -/
def memWrite (addr : Word) (v : Byte) (opcode : Option Byte) (s : State) : Except Fault State :=
  if s.inBounds addr then .ok (s.setByte addr v) else raiseOutOfBounds addr opcode s

/-- The opcode fetch (R102). -/
def fetchOpcode (s : State) : Except Fault Byte := memRead s.pc none s

/-- Fetch(k): the k-th byte of the current instruction, at (PC + k) mod 65536 (R15, R53; log 17). -/
def fetchByte (k : Nat) (opcode : Byte) (s : State) : Except Fault Byte :=
  memRead (s.pc + BitVec.ofNat 16 k) (some opcode) s

/-! Handlers and the engine. -/

/-- How a handler ends when it does not raise: Continue(n), Jumped or Halted (R101). -/
inductive Completion where
  | cont (n : Nat)
  | jumped
  | halted
  deriving DecidableEq, Repr

/-- A handler: from the opcode of the step and the state to a failure, or an ending and the state it leaves. -/
abbrev Handler := Byte → State → Except Fault (Completion × State)

/-- What the engine does after a handler ended: on Continue(n) PC becomes pc0 + n mod 65536, and otherwise PC stays as the handler
left it (R104, R105, R107). -/
def advance (pc0 : Word) : Completion → State → State
  | .cont n, t => t.setPc (pc0 + BitVec.ofNat 16 n)
  | .jumped, t => t
  | .halted, t => t

/-- Run a handler as the engine does (R104 to R108). -/
def runHandler (opcode : Byte) (handler : Handler) (s : State) : Result :=
  match handler opcode s with
  | .error f => .fault f
  | .ok (ending, t) => .next (advance s.pc ending t)

end Sys2Proof.Machine
end

