-- ==== Sys2Proof/Machine/Operands.lean ====
section
/-! DEFINITION. The operand forms: the 8-bit source src(c) (42_alu8.md R130), the immediate d8 and the target a16
(30_encoding.md R77). The pair operand rp is `State.rp` and `State.setRp` (43_pair_arith.md R170). -/

namespace Sys2Proof.Machine

/-- The address of M: the pair HL (R130). -/
def addrM (s : State) : Word := s.rp .hl

/-- src(c): a register, or the byte at HL (R130). -/
def src (o : Operand8) (opcode : Byte) (s : State) : Except Fault Byte :=
  match o with
  | .reg r => .ok (s.reg r)
  | .m => memRead (addrM s) (some opcode) s

/-- The immediate d8: the byte after the opcode, used unchanged (R77). -/
def immediate (opcode : Byte) (s : State) : Except Fault Byte := fetchByte 1 opcode s

/-- The target a16: byte 1 is its low byte and is fetched first, byte 2 its high byte (R77, R190). -/
def target (opcode : Byte) (s : State) : Except Fault Word :=
  match fetchByte 1 opcode s with
  | .error f => .error f
  | .ok lo =>
    match fetchByte 2 opcode s with
    | .error f => .error f
    | .ok hi => .ok (wordOfBytes hi lo)

end Sys2Proof.Machine
end

