-- ==== Sys2Proof/Machine/Alu8.lean ====
section
/-! DEFINITION. The 8-bit add and subtract family (42_alu8.md R131 to R141): ADD, ADC, SUB and SBB of a register or M, and
ADI, ACI and SUI. -/

namespace Sys2Proof.Machine

/-- The unbounded intermediate t of each operation (R131, R133, R135, R137). -/
def aluResult (f : AluOp) (a v : Byte) (cy : Bool) : Int :=
  match f with
  | .add => (a.toNat : Int) + v.toNat
  | .adc => (a.toNat : Int) + v.toNat + cy.toNat
  | .sub => (a.toNat : Int) - v.toNat
  | .sbb => (a.toNat : Int) - v.toNat - cy.toNat

/-- Carry of an add is the carry out (R124), of a subtract the borrow (R125). -/
def carryClass : AluOp → CarryClass
  | .add => .add8
  | .adc => .add8
  | .sub => .sub8
  | .sbb => .sub8

/-- Write the result to A, mod 256, and all four flags (scope ARITH8, R127). -/
def accumulate (f : AluOp) (v : Byte) (s : State) : State :=
  let t := aluResult f s.a v s.flags.cy
  (s.setReg .a (BitVec.ofInt 8 t)).setFlags (arith8 t (carryClass f) s.flags)

/-- The r and M forms (R131 to R138). -/
def aluHandler (f : AluOp) (o : Operand8) : Handler := fun opcode s =>
  match src o opcode s with
  | .error e => .error e
  | .ok v => .ok (.cont 1, accumulate f v s)

/-- Each immediate form computes as the r-form it matches (R77). -/
def immAluOp : ImmOp → AluOp
  | .adi => .add
  | .aci => .adc
  | .sui => .sub

/-- The immediate forms (R139 to R141). -/
def immHandler (f : ImmOp) : Handler := fun opcode s =>
  match immediate opcode s with
  | .error e => .error e
  | .ok v => .ok (.cont 2, accumulate (immAluOp f) v s)

/-- ADD B, opcode 0x80 (R131). -/
def execAddB (s : State) : Result := runHandler 0x80 (aluHandler .add (.reg .b)) s

/-- ADD C, opcode 0x81 (R131). -/
def execAddC (s : State) : Result := runHandler 0x81 (aluHandler .add (.reg .c)) s

/-- ADD D, opcode 0x82 (R131). -/
def execAddD (s : State) : Result := runHandler 0x82 (aluHandler .add (.reg .d)) s

/-- ADD E, opcode 0x83 (R131). -/
def execAddE (s : State) : Result := runHandler 0x83 (aluHandler .add (.reg .e)) s

/-- ADD H, opcode 0x84 (R131). -/
def execAddH (s : State) : Result := runHandler 0x84 (aluHandler .add (.reg .h)) s

/-- ADD L, opcode 0x85 (R131). -/
def execAddL (s : State) : Result := runHandler 0x85 (aluHandler .add (.reg .l)) s

/-- ADD M, opcode 0x86 (R132). -/
def execAddM (s : State) : Result := runHandler 0x86 (aluHandler .add .m) s

/-- ADD A, opcode 0x87 (R131). -/
def execAddA (s : State) : Result := runHandler 0x87 (aluHandler .add (.reg .a)) s

/-- ADC B, opcode 0x88 (R133). -/
def execAdcB (s : State) : Result := runHandler 0x88 (aluHandler .adc (.reg .b)) s

/-- ADC C, opcode 0x89 (R133). -/
def execAdcC (s : State) : Result := runHandler 0x89 (aluHandler .adc (.reg .c)) s

/-- ADC D, opcode 0x8A (R133). -/
def execAdcD (s : State) : Result := runHandler 0x8A (aluHandler .adc (.reg .d)) s

/-- ADC E, opcode 0x8B (R133). -/
def execAdcE (s : State) : Result := runHandler 0x8B (aluHandler .adc (.reg .e)) s

/-- ADC H, opcode 0x8C (R133). -/
def execAdcH (s : State) : Result := runHandler 0x8C (aluHandler .adc (.reg .h)) s

/-- ADC L, opcode 0x8D (R133). -/
def execAdcL (s : State) : Result := runHandler 0x8D (aluHandler .adc (.reg .l)) s

/-- ADC M, opcode 0x8E (R134). -/
def execAdcM (s : State) : Result := runHandler 0x8E (aluHandler .adc .m) s

/-- ADC A, opcode 0x8F (R133). -/
def execAdcA (s : State) : Result := runHandler 0x8F (aluHandler .adc (.reg .a)) s

/-- SUB B, opcode 0x90 (R135). -/
def execSubB (s : State) : Result := runHandler 0x90 (aluHandler .sub (.reg .b)) s

/-- SUB C, opcode 0x91 (R135). -/
def execSubC (s : State) : Result := runHandler 0x91 (aluHandler .sub (.reg .c)) s

/-- SUB D, opcode 0x92 (R135). -/
def execSubD (s : State) : Result := runHandler 0x92 (aluHandler .sub (.reg .d)) s

/-- SUB E, opcode 0x93 (R135). -/
def execSubE (s : State) : Result := runHandler 0x93 (aluHandler .sub (.reg .e)) s

/-- SUB H, opcode 0x94 (R135). -/
def execSubH (s : State) : Result := runHandler 0x94 (aluHandler .sub (.reg .h)) s

/-- SUB L, opcode 0x95 (R135). -/
def execSubL (s : State) : Result := runHandler 0x95 (aluHandler .sub (.reg .l)) s

/-- SUB M, opcode 0x96 (R136). -/
def execSubM (s : State) : Result := runHandler 0x96 (aluHandler .sub .m) s

/-- SUB A, opcode 0x97 (R135). -/
def execSubA (s : State) : Result := runHandler 0x97 (aluHandler .sub (.reg .a)) s

/-- SBB B, opcode 0x98 (R137). -/
def execSbbB (s : State) : Result := runHandler 0x98 (aluHandler .sbb (.reg .b)) s

/-- SBB C, opcode 0x99 (R137). -/
def execSbbC (s : State) : Result := runHandler 0x99 (aluHandler .sbb (.reg .c)) s

/-- SBB D, opcode 0x9A (R137). -/
def execSbbD (s : State) : Result := runHandler 0x9A (aluHandler .sbb (.reg .d)) s

/-- SBB E, opcode 0x9B (R137). -/
def execSbbE (s : State) : Result := runHandler 0x9B (aluHandler .sbb (.reg .e)) s

/-- SBB H, opcode 0x9C (R137). -/
def execSbbH (s : State) : Result := runHandler 0x9C (aluHandler .sbb (.reg .h)) s

/-- SBB L, opcode 0x9D (R137). -/
def execSbbL (s : State) : Result := runHandler 0x9D (aluHandler .sbb (.reg .l)) s

/-- SBB M, opcode 0x9E (R138). -/
def execSbbM (s : State) : Result := runHandler 0x9E (aluHandler .sbb .m) s

/-- SBB A, opcode 0x9F (R137). -/
def execSbbA (s : State) : Result := runHandler 0x9F (aluHandler .sbb (.reg .a)) s

/-- ADI d8, opcode 0xC6 (R139). -/
def execAdi (s : State) : Result := runHandler 0xC6 (immHandler .adi) s

/-- ACI d8, opcode 0xCE (R140). -/
def execAci (s : State) : Result := runHandler 0xCE (immHandler .aci) s

/-- SUI d8, opcode 0xD6 (R141). -/
def execSui (s : State) : Result := runHandler 0xD6 (immHandler .sui) s

end Sys2Proof.Machine
end

