-- ==== Sys2Proof/Machine/Branch.lean ====
section
/-! DEFINITION. The Branch Unit (44_branch.md): JMP and the eight conditional jumps. -/

namespace Sys2Proof.Machine

/-- branch(c) of R190: taken, the target is fetched and written to PC, with no check on it (R201); not taken, the operand
bytes are not read (log 10). -/
def branch (taken : Bool) : Handler := fun opcode s =>
  if taken then
    match target opcode s with
    | .error e => .error e
    | .ok a => .ok (.jumped, s.setPc a)
  else .ok (.cont 3, s)

/-- JMP (R191). -/
def jmpHandler : Handler := branch true

/-- A conditional jump (R192 to R199). -/
def jccHandler (cc : Cond) : Handler := fun opcode s => branch (condHolds s.flags cc) opcode s

/-- JMP a16, opcode 0xC3 (R191). -/
def execJmp (s : State) : Result := runHandler 0xC3 jmpHandler s

/-- JNZ a16, opcode 0xC2 (R192). -/
def execJnz (s : State) : Result := runHandler 0xC2 (jccHandler .nz) s

/-- JZ a16, opcode 0xCA (R193). -/
def execJz (s : State) : Result := runHandler 0xCA (jccHandler .z) s

/-- JNC a16, opcode 0xD2 (R194). -/
def execJnc (s : State) : Result := runHandler 0xD2 (jccHandler .nc) s

/-- JC a16, opcode 0xDA (R195). -/
def execJc (s : State) : Result := runHandler 0xDA (jccHandler .c) s

/-- JPO a16, opcode 0xE2 (R196). -/
def execJpo (s : State) : Result := runHandler 0xE2 (jccHandler .po) s

/-- JPE a16, opcode 0xEA (R197). -/
def execJpe (s : State) : Result := runHandler 0xEA (jccHandler .pe) s

/-- JP a16, opcode 0xF2 (R198). -/
def execJp (s : State) : Result := runHandler 0xF2 (jccHandler .p) s

/-- JM a16, opcode 0xFA (R199). -/
def execJm (s : State) : Result := runHandler 0xFA (jccHandler .m) s

end Sys2Proof.Machine
end

