-- ==== Sys2Proof/Machine/Control.lean ====
section
/-! DEFINITION. Halt, the interrupt-enable latch, and the unimplemented-opcode handler (45_control.md). -/

namespace Sys2Proof.Machine

/-- HLT: Halted, nothing written, PC stays at the HLT (R210; log 5). -/
def hltHandler : Handler := fun _ s => .ok (.halted, s)

/-- EI: the latch to 1 (R211; log 15). -/
def eiHandler : Handler := fun _ s => .ok (.cont 1, s.setInte true)

/-- DI: the latch to 0 (R212; log 15). -/
def diHandler : Handler := fun _ s => .ok (.cont 1, s.setInte false)

/-- The handler of the 181 unimplemented values: always UnimplementedOpcode (R213). -/
def unimplementedHandler : Handler := fun opcode s => raiseUnimplemented opcode s

/-- HLT, opcode 0x76 (R210). -/
def execHlt (s : State) : Result := runHandler 0x76 hltHandler s

/-- EI, opcode 0xFB (R211). -/
def execEi (s : State) : Result := runHandler 0xFB eiHandler s

/-- DI, opcode 0xF3 (R212). -/
def execDi (s : State) : Result := runHandler 0xF3 diHandler s

/-- An unimplemented opcode value (R213). -/
def execUnimplemented (opcode : Byte) (s : State) : Result := runHandler opcode unimplementedHandler s

end Sys2Proof.Machine
end

