-- ==== Sys2Proof/Machine/IncDec.lean ====
section
/-! DEFINITION. The 8-bit increment and decrement family (42_alu8.md R142 to R145): INR and DCR of a register or M. -/

namespace Sys2Proof.Machine

/-- Add delta to a register, or to the byte at HL, mod 256, and write Z, S and P (scope INCDEC8, R127). On M the read
comes first, so the write cannot raise (R52). -/
def incDecHandler (delta : Int) (o : Operand8) : Handler := fun opcode s =>
  match o with
  | .reg r =>
    let t := ((s.reg r).toNat : Int) + delta
    .ok (.cont 1, (s.setReg r (BitVec.ofInt 8 t)).setFlags (incDec8 t s.flags))
  | .m =>
    match memRead (addrM s) (some opcode) s with
    | .error e => .error e
    | .ok v =>
      let t := (v.toNat : Int) + delta
      match memWrite (addrM s) (BitVec.ofInt 8 t) (some opcode) s with
      | .error e => .error e
      | .ok s' => .ok (.cont 1, s'.setFlags (incDec8 t s.flags))

/-- INR (R142, R143). -/
def inrHandler (o : Operand8) : Handler := incDecHandler 1 o

/-- DCR (R144, R145). -/
def dcrHandler (o : Operand8) : Handler := incDecHandler (-1) o

/-- INR B, opcode 0x04 (R142). -/
def execInrB (s : State) : Result := runHandler 0x04 (inrHandler (.reg .b)) s

/-- INR C, opcode 0x0C (R142). -/
def execInrC (s : State) : Result := runHandler 0x0C (inrHandler (.reg .c)) s

/-- INR D, opcode 0x14 (R142). -/
def execInrD (s : State) : Result := runHandler 0x14 (inrHandler (.reg .d)) s

/-- INR E, opcode 0x1C (R142). -/
def execInrE (s : State) : Result := runHandler 0x1C (inrHandler (.reg .e)) s

/-- INR H, opcode 0x24 (R142). -/
def execInrH (s : State) : Result := runHandler 0x24 (inrHandler (.reg .h)) s

/-- INR L, opcode 0x2C (R142). -/
def execInrL (s : State) : Result := runHandler 0x2C (inrHandler (.reg .l)) s

/-- INR M, opcode 0x34 (R143). -/
def execInrM (s : State) : Result := runHandler 0x34 (inrHandler .m) s

/-- INR A, opcode 0x3C (R142). -/
def execInrA (s : State) : Result := runHandler 0x3C (inrHandler (.reg .a)) s

/-- DCR B, opcode 0x05 (R144). -/
def execDcrB (s : State) : Result := runHandler 0x05 (dcrHandler (.reg .b)) s

/-- DCR C, opcode 0x0D (R144). -/
def execDcrC (s : State) : Result := runHandler 0x0D (dcrHandler (.reg .c)) s

/-- DCR D, opcode 0x15 (R144). -/
def execDcrD (s : State) : Result := runHandler 0x15 (dcrHandler (.reg .d)) s

/-- DCR E, opcode 0x1D (R144). -/
def execDcrE (s : State) : Result := runHandler 0x1D (dcrHandler (.reg .e)) s

/-- DCR H, opcode 0x25 (R144). -/
def execDcrH (s : State) : Result := runHandler 0x25 (dcrHandler (.reg .h)) s

/-- DCR L, opcode 0x2D (R144). -/
def execDcrL (s : State) : Result := runHandler 0x2D (dcrHandler (.reg .l)) s

/-- DCR M, opcode 0x35 (R145). -/
def execDcrM (s : State) : Result := runHandler 0x35 (dcrHandler .m) s

/-- DCR A, opcode 0x3D (R144). -/
def execDcrA (s : State) : Result := runHandler 0x3D (dcrHandler (.reg .a)) s

end Sys2Proof.Machine
end

