-- ==== Sys2Proof/Machine/PairArith.lean ====
section
/-! DEFINITION. The 16-bit pair family (43_pair_arith.md): INX, DCX and DAD. -/

namespace Sys2Proof.Machine

/-- INX: the pair plus 1 mod 65536, no flag (R171). -/
def inxHandler (rp : RegPair) : Handler := fun _ s => .ok (.cont 1, s.setRp rp (s.rp rp + 1))

/-- DCX: the pair minus 1 mod 65536, no flag (R172). -/
def dcxHandler (rp : RegPair) : Handler := fun _ s => .ok (.cont 1, s.setRp rp (s.rp rp - 1))

/-- DAD: HL plus the pair mod 65536, and CY alone (scope CARRY16, R173). -/
def dadHandler (rp : RegPair) : Handler := fun _ s =>
  let t := ((s.rp .hl).toNat : Int) + (s.rp rp).toNat
  .ok (.cont 1, (s.setRp .hl (BitVec.ofInt 16 t)).setFlags (carry16 t s.flags))

/-- INX B, opcode 0x03 (R171). -/
def execInxB (s : State) : Result := runHandler 0x03 (inxHandler .bc) s

/-- INX D, opcode 0x13 (R171). -/
def execInxD (s : State) : Result := runHandler 0x13 (inxHandler .de) s

/-- INX H, opcode 0x23 (R171). -/
def execInxH (s : State) : Result := runHandler 0x23 (inxHandler .hl) s

/-- INX SP, opcode 0x33 (R171). -/
def execInxSp (s : State) : Result := runHandler 0x33 (inxHandler .sp) s

/-- DCX B, opcode 0x0B (R172). -/
def execDcxB (s : State) : Result := runHandler 0x0B (dcxHandler .bc) s

/-- DCX D, opcode 0x1B (R172). -/
def execDcxD (s : State) : Result := runHandler 0x1B (dcxHandler .de) s

/-- DCX H, opcode 0x2B (R172). -/
def execDcxH (s : State) : Result := runHandler 0x2B (dcxHandler .hl) s

/-- DCX SP, opcode 0x3B (R172). -/
def execDcxSp (s : State) : Result := runHandler 0x3B (dcxHandler .sp) s

/-- DAD B, opcode 0x09 (R173). -/
def execDadB (s : State) : Result := runHandler 0x09 (dadHandler .bc) s

/-- DAD D, opcode 0x19 (R173). -/
def execDadD (s : State) : Result := runHandler 0x19 (dadHandler .de) s

/-- DAD H, opcode 0x29 (R173). -/
def execDadH (s : State) : Result := runHandler 0x29 (dadHandler .hl) s

/-- DAD SP, opcode 0x39 (R173). -/
def execDadSp (s : State) : Result := runHandler 0x39 (dadHandler .sp) s

end Sys2Proof.Machine
end

