-- ==== Sys2Proof/Machine/Loader.lean ====
section
/-! DEFINITION. What the loader does before the first step: `load` of one byte (40_dispatch.md R113), and construction of a
Machine State from an image and launch values (70_reset_and_hazards.md R260). -/

namespace Sys2Proof.Machine

/-- load(addr, byte): store one byte of the image. An address beyond the buffer stores nothing (log 14). -/
def State.load (s : State) (addr : Word) (v : Byte) : State :=
  if s.inBounds addr then s.setByte addr v else s

/-- Load bytes at consecutive addresses mod 65536 (R70). -/
def State.loadBytes (s : State) (addr : Word) : List Byte → State
  | [] => s
  | v :: rest => State.loadBytes (s.load addr v) (addr + 1) rest

/-- The cells of an image that starts at an address. -/
def imageCells : Nat → List Byte → List Host.Cell
  | _, [] => []
  | k, v :: rest => if v = Config.unlistedByte then imageCells (k + 1) rest else (k, v) :: imageCells (k + 1) rest

/-- A buffer of as many bytes as the image has, filled from it: steps 1 and 2 of R260. -/
def Memory.ofImage (image : List Byte) : Memory := { size := image.length, cells := imageCells 0 image }

/-- Construction (R260). The image fixes every byte, and so MEM_SIZE too. -/
def State.construct (image : List Byte) (resetPc : Word) (v : Launch) : State :=
  State.launch (Memory.ofImage image) resetPc v

end Sys2Proof.Machine
end

