-- ==== Sys2Proof/Machine/Step.lean ====
section
/-! DEFINITION. One step: fetch the opcode at PC, decode it, run its meaning (40_dispatch.md R100 to R108). -/

namespace Sys2Proof.Machine

/-- One step of the CORE (R108). Nothing but a step changes the state (log 16). -/
def step (s : State) : Host.Outcome State Fault Refusal :=
  match fetchOpcode s with
  | .error f => .fault f
  | .ok op => exec (decodeOpcode op) s

/-- The state with an instruction of the opcode table loaded where the next step fetches: at PC (log 7). -/
def State.withFetchWord (s : State) (nbits w : Nat) : State := s.loadBytes s.pc (tableBytes nbits w)

end Sys2Proof.Machine
end

