-- ==== Sys2Proof/Machine/Interface.lean ====
section
/-! DEFINITION. The CORE's block interface (40_dispatch.md R113): the handler each instruction selects, a step as a
transaction with its outcome port, the failure codes (60_exceptions.md R230), introspection (R112), and the run loop (R111). -/

namespace Sys2Proof.Machine

/-- The handler of each class (R72, R80). `exec` runs this handler, and this view also shows how it ended. -/
def handlerOf : Form → Handler
  | .alu f o => aluHandler f o
  | .aluImm f => immHandler f
  | .inr o => inrHandler o
  | .dcr o => dcrHandler o
  | .inx rp => inxHandler rp
  | .dcx rp => dcxHandler rp
  | .dad rp => dadHandler rp
  | .jmp => jmpHandler
  | .jcc cc => jccHandler cc
  | .hlt => hltHandler
  | .ei => eiHandler
  | .di => diHandler
  | .unimplemented _ => unimplementedHandler

/-- StepOutcome (R101). -/
inductive StepOutcome where
  | completed (ending : Completion)
  | failed (reason : Fault)
  deriving DecidableEq, Repr

/-- One step as a transaction: its outcome, and the state after it, which is the state before it when the step
failed (R106, R235). -/
def transact (s : State) : StepOutcome × State :=
  match fetchOpcode s with
  | .error f => (.failed f, s)
  | .ok op =>
    match handlerOf (decodeOpcode op).form op s with
    | .error f => (.failed f, s)
    | .ok (ending, t) => (.completed ending, advance s.pc ending t)

/-- The numeric code of a failure (R230). -/
def Fault.code : Fault → Nat
  | .unimplementedOpcode _ _ => 0
  | .outOfBoundsMemoryAccess _ _ _ => 1

/-- The `kind` field of the outcome port. -/
inductive OutcomeKind where
  | continue | jumped | halted | failed
  deriving DecidableEq, Repr

/-- The `reason` field of the outcome port. -/
inductive FailReason where
  | unimplementedOpcode | outOfBounds
  deriving DecidableEq, Repr

/-- The outcome port of R113. A field is none where R113 gives it no valid value. -/
structure OutcomePort where
  kind : OutcomeKind
  n : Option (BitVec 2)
  reason : Option FailReason
  failOpcode : Option Byte
  failPc : Option Word
  failAddress : Option Word
  deriving DecidableEq, Repr

/-- What the outcome port shows for each outcome. -/
def StepOutcome.port : StepOutcome → OutcomePort
  | .completed (.cont n) => ⟨.continue, some (BitVec.ofNat 2 n), none, none, none, none⟩
  | .completed .jumped => ⟨.jumped, none, none, none, none, none⟩
  | .completed .halted => ⟨.halted, none, none, none, none, none⟩
  | .failed (.unimplementedOpcode op pc) => ⟨.failed, none, some .unimplementedOpcode, some op, some pc, none⟩
  | .failed (.outOfBoundsMemoryAccess a pc op) => ⟨.failed, none, some .outOfBounds, op, some pc, some a⟩

/-- What introspection shows between steps (R112): every register, flag and the latch, and memory read by address. -/
structure Introspection where
  a : Byte
  b : Byte
  c : Byte
  d : Byte
  e : Byte
  h : Byte
  l : Byte
  sp : Word
  pc : Word
  z : Bool
  s : Bool
  p : Bool
  cy : Bool
  ac : Bool
  inte : Bool
  memSize : Nat
  deriving DecidableEq, Repr

/-- The introspection port. It only reads. -/
def introspect (s : State) : Introspection :=
  { a := s.a, b := s.b, c := s.c, d := s.d, e := s.e, h := s.h, l := s.l, sp := s.sp, pc := s.pc,
    z := s.flags.z, s := s.flags.s, p := s.flags.p, cy := s.flags.cy, ac := s.flags.ac, inte := s.inte,
    memSize := s.mem.size }

/-- The memory half of introspection: the byte at an address of the buffer, none beyond it. -/
def introspectMem (s : State) (addr : Word) : Option Byte :=
  if s.inBounds addr then some (s.byteAt addr) else none

/-- TerminationReason (R111): the outcome that ended a run. -/
inductive TerminationReason where
  | halted
  | failed (reason : Fault)
  deriving DecidableEq, Repr

/-- run (R111): step until Halted or Failed, at most `fuel` times. The bound is the driver's (R268), and a run cut short by it
has no TerminationReason (log 13). -/
def run : Nat → State → Option TerminationReason × State
  | 0, s => (none, s)
  | fuel + 1, s =>
    match transact s with
    | (.failed f, t) => (some (.failed f), t)
    | (.completed .halted, t) => (some .halted, t)
    | (.completed .jumped, t) => run fuel t
    | (.completed (.cont _), t) => run fuel t

/-- `steps` steps one after another, as the driver asks for them (R100, R111): the state they reach, or the outcome of the first that
does not answer a next state. -/
def runSteps : Nat → State → Result
  | 0, s => .next s
  | steps + 1, s =>
    match step s with
    | .next t => runSteps steps t
    | .fault f => .fault f
    | .refused r => .refused r

end Sys2Proof.Machine
end

