-- ==== Sys2Proof/Safety.lean ====
section
/-! DEFINITION. What claims mean by a good state, a safe run and a finished run (70_reset_and_hazards.md R267). -/

namespace Sys2Proof.Machine

/-- The invariant of the machine: its memory is in canonical form, with a legal MEM_SIZE. -/
abbrev State.Inv (s : State) : Prop := s.mem.wf

/-- `k` steps run without a failure, and end in `t`. -/
def StepsTo (k : Nat) (s t : State) : Prop := runSteps k s = .next t

/-- `k` steps run without a failure. A failure is never a successful end (R267). -/
def SafeFor (k : Nat) (s : State) : Prop := ∃ t, StepsTo k s t

/-- A run from `s` finishes successfully in `t`: it ends Halted (R267). -/
def FinishesIn (s t : State) : Prop := ∃ fuel, run fuel s = (some .halted, t)

end Sys2Proof.Machine
end

