-- ==== Sys2Proof/Certificates/Slice0/Obligations.lean ====
section
/-! DEFINITION. What is claimed of the machine, for the provers. Each statement's docstring says what it states; OBLIGATIONS.json
names the rules or sections it rests on. -/

namespace Sys2Proof.Claims

open Sys2Proof.Machine

/-- The 16-bit value of the two bytes after the opcode, low byte first (R53). -/
def targetAt (s : State) : Word := s.byteAt (s.pc + 2#16) ++ s.byteAt (s.pc + 1#16)

/-- 1 XOR each of the byte's eight bits: an even number of 1 bits (R123). -/
def evenOnes (v : Byte) : Bool :=
  !(v.getLsbD 0 ^^ v.getLsbD 1 ^^ v.getLsbD 2 ^^ v.getLsbD 3 ^^ v.getLsbD 4 ^^ v.getLsbD 5 ^^ v.getLsbD 6 ^^ v.getLsbD 7)

/-- Flags with Z, S and P those of a result byte, and CY given (R128). AC stays. -/
def zspcy (v : Byte) (cy : Bool) (f : Flags) : Flags :=
  { z := decide (v = 0), s := decide (v.toNat ≥ 128), p := evenOnes v, cy := cy, ac := f.ac }

/-- A state after an accumulator form of `n` bytes: the result byte in A, Z, S and P its own, CY given, PC past the
instruction, and everything else as before. -/
def accumulated (s : State) (n : Nat) (v : Byte) (cy : Bool) : State :=
  { s with a := v, flags := zspcy v cy s.flags, pc := s.pc + BitVec.ofNat 16 n }

/-- Nothing is stored: MEM_SIZE is unchanged and every byte reads as before. -/
def KeepsMemory (s t : State) : Prop := t.mem.size = s.mem.size ∧ ∀ a : Nat, t.mem.read a = s.mem.read a

/-- An outcome with its next state changed. -/
def mapNext (g : State → State) : Result → Result
  | .next t => .next (g t)
  | .fault f => .fault f
  | .refused r => .refused r

/-- A state with another AC. -/
def withAc (x : Bool) (s : State) : State := { s with flags := { s.flags with ac := x } }

/-- A state with another SP. -/
def withSp (x : Word) (s : State) : State := { s with sp := x }

/-- A state without what INTE and AC say. -/
def forgetInert (s : State) : State := { s with inte := false, flags := { s.flags with ac := false } }

/-- Is the opcode that of JMP, or of a conditional jump whose flag test holds (R75, R191)? -/
def takenBranch (op : Byte) (f : Flags) : Bool :=
  (op == 0xC3) || (op == 0xC2 && !f.z) || (op == 0xCA && f.z) || (op == 0xD2 && !f.cy) || (op == 0xDA && f.cy) ||
  (op == 0xE2 && !f.p) || (op == 0xEA && f.p) || (op == 0xF2 && !f.s) || (op == 0xFA && f.s)

end Sys2Proof.Claims

open Sys2Proof Sys2Proof.Machine Sys2Proof.Claims

/-- For each of addB, addC, addD, addE, addH, addL, addA, whose opcodes are 0x80 to 0x85 and 0x87, and every state: the
opcode decodes to the instruction, and it completes with A = (A + r) mod 256, Z, S and P of that byte, CY the carry
out of bit 7, AC and everything else unchanged, and PC + 1. The opcode bytes are the Intel 8080's, as the spec itself
marks (log 9). -/
def Obligations.AddRegisterResult : Prop :=
  ∀ x ∈ ([(.b, .addB, 0x80), (.c, .addC, 0x81), (.d, .addD, 0x82), (.e, .addE, 0x83), (.h, .addH, 0x84), (.l, .addL, 0x85), (.a, .addA, 0x87)] :
      List (Reg8 × Instr × Byte)), ∀ s : State,
    decodeOpcode x.2.2 = x.2.1 ∧
    exec x.2.1 s = .next (accumulated s 1 (s.a + s.reg x.1)
      (decide (s.a.toNat + (s.reg x.1).toNat > 255)))

/-- For each of adcB, adcC, adcD, adcE, adcH, adcL, adcA, whose opcodes are 0x88 to 0x8D and 0x8F, and every state: the
opcode decodes to the instruction, and it completes with A = (A + r + CY) mod 256, Z, S and P of that byte, CY set iff
the unbounded sum exceeds 255, everything else unchanged, and PC + 1. The opcode bytes are the Intel 8080's, as the
spec itself marks (log 9). -/
def Obligations.AdcRegisterResult : Prop :=
  ∀ x ∈ ([(.b, .adcB, 0x88), (.c, .adcC, 0x89), (.d, .adcD, 0x8A), (.e, .adcE, 0x8B), (.h, .adcH, 0x8C), (.l, .adcL, 0x8D), (.a, .adcA, 0x8F)] :
      List (Reg8 × Instr × Byte)), ∀ s : State,
    decodeOpcode x.2.2 = x.2.1 ∧
    exec x.2.1 s = .next (accumulated s 1 (s.a + s.reg x.1 + BitVec.ofNat 8 s.flags.cy.toNat)
      (decide (s.a.toNat + (s.reg x.1).toNat + s.flags.cy.toNat > 255)))

/-- For each of subB, subC, subD, subE, subH, subL, subA and every state: the opcode (0x90 to 0x95, 0x97) decodes to the
instruction, and it completes with A = (A - r) mod 256, Z, S and P of that byte, CY = 1 iff A < r as unsigned numbers,
everything else unchanged, and PC + 1. That CY is the borrow is the decision D16 of the spec (log 11). The opcode
bytes are the Intel 8080's, as the spec itself marks (log 9). -/
def Obligations.SubRegisterResult : Prop :=
  ∀ x ∈ ([(.b, .subB, 0x90), (.c, .subC, 0x91), (.d, .subD, 0x92), (.e, .subE, 0x93), (.h, .subH, 0x94), (.l, .subL, 0x95), (.a, .subA, 0x97)] :
      List (Reg8 × Instr × Byte)), ∀ s : State,
    decodeOpcode x.2.2 = x.2.1 ∧
    exec x.2.1 s = .next (accumulated s 1 (s.a - s.reg x.1)
      (decide (s.a.toNat < (s.reg x.1).toNat)))

/-- For each of sbbB, sbbC, sbbD, sbbE, sbbH, sbbL, sbbA and every state: the opcode (0x98 to 0x9D, 0x9F) decodes to the
instruction, and it completes with A = (A - r - CY) mod 256, Z, S and P of that byte, CY = 1 iff A < r + CY as
unsigned numbers, everything else unchanged, and PC + 1. The sense of CY and its carry-in are the decisions D16 and
D17 of the spec (log 11). The opcode bytes are the Intel 8080's, as the spec itself marks (log 9). -/
def Obligations.SbbRegisterResult : Prop :=
  ∀ x ∈ ([(.b, .sbbB, 0x98), (.c, .sbbC, 0x99), (.d, .sbbD, 0x9A), (.e, .sbbE, 0x9B), (.h, .sbbH, 0x9C), (.l, .sbbL, 0x9D), (.a, .sbbA, 0x9F)] :
      List (Reg8 × Instr × Byte)), ∀ s : State,
    decodeOpcode x.2.2 = x.2.1 ∧
    exec x.2.1 s = .next (accumulated s 1 (s.a - s.reg x.1 - BitVec.ofNat 8 s.flags.cy.toNat)
      (decide (s.a.toNat < (s.reg x.1).toNat + s.flags.cy.toNat)))

/-- For addM and every state: opcode 0x86 decodes to it. When HL is inside the buffer it completes as the register form
does, with the byte at HL as the operand and memory unchanged. When HL is MEM_SIZE or more it fails with
OutOfBoundsMemoryAccess at address HL, with PC and opcode 0x86. That M is the byte at HL is the decision D4 of the
spec (log 9). The opcode bytes are the Intel 8080's, as the spec itself marks (log 9). That a failure records PC and
the opcode is the decision D10 of the spec (log 12). -/
def Obligations.AddMemoryResult : Prop :=
  ∀ s : State,
    decodeOpcode 0x86 = .addM ∧
    (s.inBounds (addrM s) → exec .addM s = .next (accumulated s 1 (s.a + s.byteAt (addrM s))
      (decide (s.a.toNat + (s.byteAt (addrM s)).toNat > 255)))) ∧
    (¬ s.inBounds (addrM s) → exec .addM s = .fault (.outOfBoundsMemoryAccess (addrM s) s.pc (some 0x86)))

/-- For adcM and every state: opcode 0x8E decodes to it. When HL is inside the buffer it completes as the register form
does, with the byte at HL as the operand and memory unchanged. When HL is MEM_SIZE or more it fails with
OutOfBoundsMemoryAccess at address HL, with PC and opcode 0x8E. That M is the byte at HL is the decision D4 of the
spec (log 9). The opcode bytes are the Intel 8080's, as the spec itself marks (log 9). That a failure records PC and
the opcode is the decision D10 of the spec (log 12). -/
def Obligations.AdcMemoryResult : Prop :=
  ∀ s : State,
    decodeOpcode 0x8E = .adcM ∧
    (s.inBounds (addrM s) → exec .adcM s = .next (accumulated s 1 (s.a + s.byteAt (addrM s) + BitVec.ofNat 8 s.flags.cy.toNat)
      (decide (s.a.toNat + (s.byteAt (addrM s)).toNat + s.flags.cy.toNat > 255)))) ∧
    (¬ s.inBounds (addrM s) → exec .adcM s = .fault (.outOfBoundsMemoryAccess (addrM s) s.pc (some 0x8E)))

/-- For subM and every state: opcode 0x96 decodes to it. When HL is inside the buffer it completes as the register form
does, with the byte at HL as the operand and memory unchanged. When HL is MEM_SIZE or more it fails with
OutOfBoundsMemoryAccess at address HL, with PC and opcode 0x96. That M is the byte at HL is the decision D4 of the
spec (log 9). The opcode bytes are the Intel 8080's, as the spec itself marks (log 9). That a failure records PC and
the opcode is the decision D10 of the spec (log 12). That CY after SUB is the borrow, A < the byte, is the decision
D16 of the spec (log 11). -/
def Obligations.SubMemoryResult : Prop :=
  ∀ s : State,
    decodeOpcode 0x96 = .subM ∧
    (s.inBounds (addrM s) → exec .subM s = .next (accumulated s 1 (s.a - s.byteAt (addrM s))
      (decide (s.a.toNat < (s.byteAt (addrM s)).toNat)))) ∧
    (¬ s.inBounds (addrM s) → exec .subM s = .fault (.outOfBoundsMemoryAccess (addrM s) s.pc (some 0x96)))

/-- For sbbM and every state: opcode 0x9E decodes to it. When HL is inside the buffer it completes as the register form
does, with the byte at HL as the operand and memory unchanged. When HL is MEM_SIZE or more it fails with
OutOfBoundsMemoryAccess at address HL, with PC and opcode 0x9E. That M is the byte at HL is the decision D4 of the
spec (log 9). The opcode bytes are the Intel 8080's, as the spec itself marks (log 9). That a failure records PC and
the opcode is the decision D10 of the spec (log 12). That CY after SBB is the borrow, A < the byte + CY, with the
carry-in in it, rests on the decisions D16 and D17 of the spec (log 11). -/
def Obligations.SbbMemoryResult : Prop :=
  ∀ s : State,
    decodeOpcode 0x9E = .sbbM ∧
    (s.inBounds (addrM s) → exec .sbbM s = .next (accumulated s 1 (s.a - s.byteAt (addrM s) - BitVec.ofNat 8 s.flags.cy.toNat)
      (decide (s.a.toNat < (s.byteAt (addrM s)).toNat + s.flags.cy.toNat)))) ∧
    (¬ s.inBounds (addrM s) → exec .sbbM s = .fault (.outOfBoundsMemoryAccess (addrM s) s.pc (some 0x9E)))

/-- For adi and every state: opcode 0xC6 decodes to it, as two bytes. When (PC + 1) mod 65536 is inside the buffer it
completes with the byte there as the operand: A is the result mod 256, Z, S and P are those of A, CY as the operation
gives it, everything else unchanged, and PC + 2. When it is not, it fails with OutOfBoundsMemoryAccess at (PC + 1) mod
65536, with PC and opcode 0xC6. CY is the carry out. That the operand address wraps mod 65536 before the check is the
decision D22 of the spec (log 17). The opcode bytes are the Intel 8080's, as the spec itself marks (log 9). That a
failure records PC and the opcode is the decision D10 of the spec (log 12). -/
def Obligations.AdiResult : Prop :=
  ∀ s : State,
    (decodeOpcode 0xC6 = .adi ∧ Instr.length .adi = 2) ∧
    (s.inBounds (s.pc + 1#16) → exec .adi s = .next (accumulated s 2 (s.a + s.byteAt (s.pc + 1#16))
      (decide (s.a.toNat + (s.byteAt (s.pc + 1#16)).toNat > 255)))) ∧
    (¬ s.inBounds (s.pc + 1#16) → exec .adi s = .fault (.outOfBoundsMemoryAccess (s.pc + 1#16) s.pc (some 0xC6)))

/-- For aci and every state: opcode 0xCE decodes to it, as two bytes. When (PC + 1) mod 65536 is inside the buffer it
completes with the byte there as the operand: A is the result mod 256, Z, S and P are those of A, CY as the operation
gives it, everything else unchanged, and PC + 2. When it is not, it fails with OutOfBoundsMemoryAccess at (PC + 1) mod
65536, with PC and opcode 0xCE. CY is the carry out of the sum with the old CY in it. That the operand address wraps
mod 65536 before the check is the decision D22 of the spec (log 17). The opcode bytes are the Intel 8080's, as the
spec itself marks (log 9). That a failure records PC and the opcode is the decision D10 of the spec (log 12). -/
def Obligations.AciResult : Prop :=
  ∀ s : State,
    (decodeOpcode 0xCE = .aci ∧ Instr.length .aci = 2) ∧
    (s.inBounds (s.pc + 1#16) → exec .aci s = .next (accumulated s 2 (s.a + s.byteAt (s.pc + 1#16) + BitVec.ofNat 8 s.flags.cy.toNat)
      (decide (s.a.toNat + (s.byteAt (s.pc + 1#16)).toNat + s.flags.cy.toNat > 255)))) ∧
    (¬ s.inBounds (s.pc + 1#16) → exec .aci s = .fault (.outOfBoundsMemoryAccess (s.pc + 1#16) s.pc (some 0xCE)))

/-- For sui and every state: opcode 0xD6 decodes to it, as two bytes. When (PC + 1) mod 65536 is inside the buffer it
completes with the byte there as the operand: A is the result mod 256, Z, S and P are those of A, CY as the operation
gives it, everything else unchanged, and PC + 2. When it is not, it fails with OutOfBoundsMemoryAccess at (PC + 1) mod
65536, with PC and opcode 0xD6. CY is the borrow, the decision D16 of the spec (log 11). That the operand address
wraps mod 65536 before the check is the decision D22 of the spec (log 17). The opcode bytes are the Intel 8080's, as
the spec itself marks (log 9). That a failure records PC and the opcode is the decision D10 of the spec (log 12). -/
def Obligations.SuiResult : Prop :=
  ∀ s : State,
    (decodeOpcode 0xD6 = .sui ∧ Instr.length .sui = 2) ∧
    (s.inBounds (s.pc + 1#16) → exec .sui s = .next (accumulated s 2 (s.a - s.byteAt (s.pc + 1#16))
      (decide (s.a.toNat < (s.byteAt (s.pc + 1#16)).toNat)))) ∧
    (¬ s.inBounds (s.pc + 1#16) → exec .sui s = .fault (.outOfBoundsMemoryAccess (s.pc + 1#16) s.pc (some 0xD6)))

/-- For each of inrB, inrC, inrD, inrE, inrH, inrL, inrA and every state: the opcode decodes to the instruction, and it
completes with the register one more mod 256, Z, S and P of the new byte, CY and AC unchanged, every other register,
SP, INTE and memory unchanged, and PC + 1. The opcode bytes are the Intel 8080's, as the spec itself marks (log 9). -/
def Obligations.InrRegisterResult : Prop :=
  ∀ x ∈ ([(.b, .inrB, 0x04), (.c, .inrC, 0x0C), (.d, .inrD, 0x14), (.e, .inrE, 0x1C), (.h, .inrH, 0x24), (.l, .inrL, 0x2C), (.a, .inrA, 0x3C)] :
      List (Reg8 × Instr × Byte)), ∀ s : State,
    decodeOpcode x.2.2 = x.2.1 ∧
    ∃ t, exec x.2.1 s = .next t ∧
      t.reg x.1 = s.reg x.1 + 1 ∧ (∀ r, r ≠ x.1 → t.reg r = s.reg r) ∧
      t.flags = zspcy (s.reg x.1 + 1) s.flags.cy s.flags ∧
      t.pc = s.pc + 1#16 ∧ t.sp = s.sp ∧ t.inte = s.inte ∧ t.mem = s.mem

/-- For each of dcrB, dcrC, dcrD, dcrE, dcrH, dcrL, dcrA and every state: the opcode decodes to the instruction, and it
completes with the register one less mod 256, Z, S and P of the new byte, CY and AC unchanged, every other register,
SP, INTE and memory unchanged, and PC + 1. The opcode bytes are the Intel 8080's, as the spec itself marks (log 9). -/
def Obligations.DcrRegisterResult : Prop :=
  ∀ x ∈ ([(.b, .dcrB, 0x05), (.c, .dcrC, 0x0D), (.d, .dcrD, 0x15), (.e, .dcrE, 0x1D), (.h, .dcrH, 0x25), (.l, .dcrL, 0x2D), (.a, .dcrA, 0x3D)] :
      List (Reg8 × Instr × Byte)), ∀ s : State,
    decodeOpcode x.2.2 = x.2.1 ∧
    ∃ t, exec x.2.1 s = .next t ∧
      t.reg x.1 = s.reg x.1 - 1 ∧ (∀ r, r ≠ x.1 → t.reg r = s.reg r) ∧
      t.flags = zspcy (s.reg x.1 - 1) s.flags.cy s.flags ∧
      t.pc = s.pc + 1#16 ∧ t.sp = s.sp ∧ t.inte = s.inte ∧ t.mem = s.mem

/-- For inrM: opcode 0x34 decodes to it. In every state whose memory is in canonical form and whose HL is inside the
buffer it completes: the byte at HL is one more mod 256, every other byte reads as before, MEM_SIZE, every register,
SP and INTE are unchanged, Z, S and P are those of the new byte, CY and AC unchanged, and PC + 1. In every state whose
HL is MEM_SIZE or more it fails with OutOfBoundsMemoryAccess at HL, with PC and opcode 0x34. That M is the byte at HL
is the decision D4 of the spec (log 9). That the canonical form is kept is another statement. The opcode bytes are the
Intel 8080's, as the spec itself marks (log 9). The canonical form is this model's own choice (log 2). That a failure
records PC and the opcode is the decision D10 of the spec (log 12). -/
def Obligations.InrMemoryResult : Prop :=
  decodeOpcode 0x34 = .inrM ∧
  ∀ s : State,
    (s.mem.wf → s.inBounds (addrM s) → ∃ t, exec .inrM s = .next t ∧
      t.byteAt (addrM s) = s.byteAt (addrM s) + 1 ∧
      (∀ a : Nat, a ≠ (addrM s).toNat → t.mem.read a = s.mem.read a) ∧ t.mem.size = s.mem.size ∧
      t.flags = zspcy (s.byteAt (addrM s) + 1) s.flags.cy s.flags ∧
      (∀ r, t.reg r = s.reg r) ∧ t.pc = s.pc + 1#16 ∧ t.sp = s.sp ∧ t.inte = s.inte) ∧
    (¬ s.inBounds (addrM s) → exec .inrM s = .fault (.outOfBoundsMemoryAccess (addrM s) s.pc (some 0x34)))

/-- For dcrM: opcode 0x35 decodes to it. In every state whose memory is in canonical form and whose HL is inside the
buffer it completes: the byte at HL is one less mod 256, every other byte reads as before, MEM_SIZE, every register,
SP and INTE are unchanged, Z, S and P are those of the new byte, CY and AC unchanged, and PC + 1. In every state whose
HL is MEM_SIZE or more it fails with OutOfBoundsMemoryAccess at HL, with PC and opcode 0x35. That M is the byte at HL
is the decision D4 of the spec (log 9). That the canonical form is kept is another statement. The opcode bytes are the
Intel 8080's, as the spec itself marks (log 9). The canonical form is this model's own choice (log 2). That a failure
records PC and the opcode is the decision D10 of the spec (log 12). -/
def Obligations.DcrMemoryResult : Prop :=
  decodeOpcode 0x35 = .dcrM ∧
  ∀ s : State,
    (s.mem.wf → s.inBounds (addrM s) → ∃ t, exec .dcrM s = .next t ∧
      t.byteAt (addrM s) = s.byteAt (addrM s) - 1 ∧
      (∀ a : Nat, a ≠ (addrM s).toNat → t.mem.read a = s.mem.read a) ∧ t.mem.size = s.mem.size ∧
      t.flags = zspcy (s.byteAt (addrM s) - 1) s.flags.cy s.flags ∧
      (∀ r, t.reg r = s.reg r) ∧ t.pc = s.pc + 1#16 ∧ t.sp = s.sp ∧ t.inte = s.inte) ∧
    (¬ s.inBounds (addrM s) → exec .dcrM s = .fault (.outOfBoundsMemoryAccess (addrM s) s.pc (some 0x35)))

/-- For each of inxB, inxD, inxH, inxSp and every state: the opcode decodes to the instruction, and it completes with the
pair (or SP) one more mod 65536, every other pair, SP where it is not the operand, A, all five flags, INTE and memory
unchanged, and PC + 1. The opcode bytes are the Intel 8080's, as the spec itself marks (log 9). -/
def Obligations.InxResult : Prop :=
  ∀ x ∈ ([(.bc, .inxB, 0x03), (.de, .inxD, 0x13), (.hl, .inxH, 0x23), (.sp, .inxSp, 0x33)] : List (RegPair × Instr × Byte)),
    ∀ s : State,
    decodeOpcode x.2.2 = x.2.1 ∧
    ∃ t, exec x.2.1 s = .next t ∧
      (t.rp x.1).toNat = ((s.rp x.1).toNat + 1) % 65536 ∧ (∀ rp, rp ≠ x.1 → t.rp rp = s.rp rp) ∧
      t.a = s.a ∧ t.flags = s.flags ∧ t.pc = s.pc + 1#16 ∧ t.inte = s.inte ∧ t.mem = s.mem

/-- For each of dcxB, dcxD, dcxH, dcxSp and every state: the opcode decodes to the instruction, and it completes with the
pair (or SP) one less mod 65536, every other pair, SP where it is not the operand, A, all five flags, INTE and memory
unchanged, and PC + 1. The opcode bytes are the Intel 8080's, as the spec itself marks (log 9). -/
def Obligations.DcxResult : Prop :=
  ∀ x ∈ ([(.bc, .dcxB, 0x0B), (.de, .dcxD, 0x1B), (.hl, .dcxH, 0x2B), (.sp, .dcxSp, 0x3B)] : List (RegPair × Instr × Byte)),
    ∀ s : State,
    decodeOpcode x.2.2 = x.2.1 ∧
    ∃ t, exec x.2.1 s = .next t ∧
      (t.rp x.1).toNat = ((s.rp x.1).toNat + 65535) % 65536 ∧ (∀ rp, rp ≠ x.1 → t.rp rp = s.rp rp) ∧
      t.a = s.a ∧ t.flags = s.flags ∧ t.pc = s.pc + 1#16 ∧ t.inte = s.inte ∧ t.mem = s.mem

/-- For each of dadB, dadD, dadH, dadSp and every state: the opcode decodes to the instruction, and it completes with HL =
(HL + rp) mod 65536, CY = 1 iff the sum exceeds 65535, Z, S, P and AC unchanged, BC, DE, SP, A, INTE and memory
unchanged, and PC + 1. That DAD takes SP is the decision D2 of the spec (log 9). The opcode bytes are the Intel
8080's, as the spec itself marks (log 9). -/
def Obligations.DadResult : Prop :=
  ∀ x ∈ ([(.bc, .dadB, 0x09), (.de, .dadD, 0x19), (.hl, .dadH, 0x29), (.sp, .dadSp, 0x39)] : List (RegPair × Instr × Byte)),
    ∀ s : State,
    decodeOpcode x.2.2 = x.2.1 ∧
    ∃ t, exec x.2.1 s = .next t ∧
      (t.rp .hl).toNat = ((s.rp .hl).toNat + (s.rp x.1).toNat) % 65536 ∧ (∀ rp, rp ≠ .hl → t.rp rp = s.rp rp) ∧
      t.flags = { s.flags with cy := decide ((s.rp .hl).toNat + (s.rp x.1).toNat > 65535) } ∧
      t.a = s.a ∧ t.pc = s.pc + 1#16 ∧ t.inte = s.inte ∧ t.mem = s.mem

/-- For jmp and every state: opcode 0xC3 decodes to it, as three bytes. When both operand bytes are inside the buffer it
completes with PC = high byte * 256 + low byte, low byte first in memory, whatever that target is, and nothing else
changed. When the low byte is out of bounds it fails at (PC + 1) mod 65536, else when the high byte is, at (PC + 2)
mod 65536, with PC and opcode 0xC3. That the target is not checked is the decision D20 of the spec (log 10). The
opcode bytes are the Intel 8080's, as the spec itself marks (log 9). That the operand address wraps mod 65536 before
the check is the decision D22 of the spec (log 17). That the low byte is checked first, and that the failure records
PC and the opcode, are the decisions D6 and D10 of the spec (log 12). -/
def Obligations.JmpResult : Prop :=
  ∀ s : State,
    (decodeOpcode 0xC3 = .jmp ∧ Instr.length .jmp = 3) ∧
    (s.inBounds (s.pc + 1#16) → s.inBounds (s.pc + 2#16) →
      exec .jmp s = .next { s with pc := targetAt s } ∧
      (targetAt s).toNat = (s.byteAt (s.pc + 2#16)).toNat * 256 + (s.byteAt (s.pc + 1#16)).toNat) ∧
    (¬ s.inBounds (s.pc + 1#16) → exec .jmp s = .fault (.outOfBoundsMemoryAccess (s.pc + 1#16) s.pc (some 0xC3))) ∧
    (s.inBounds (s.pc + 1#16) → ¬ s.inBounds (s.pc + 2#16) →
      exec .jmp s = .fault (.outOfBoundsMemoryAccess (s.pc + 2#16) s.pc (some 0xC3)))

/-- For each of jnz, jz, jnc, jc, jpo, jpe, jp, jm, with its opcode and the flag it tests (Z, CY, P or S against 0 or 1),
and every state: the opcode decodes to the instruction. Taken, with both operand bytes inside the buffer, it completes
with PC = the little-endian target and nothing else changed. Taken with an operand byte out of bounds it fails there,
the low byte first. Not taken it completes with PC + 3 and nothing else changed, even where the operand bytes are out
of bounds, which is the decision D12 of the spec (log 10). The opcode bytes are the Intel 8080's, as the spec itself
marks (log 9). That the operand address wraps mod 65536 before the check is the decision D22 of the spec (log 17).
That the low byte is checked first, and that the failure records PC and the opcode, are the decisions D6 and D10 of
the spec (log 12). That a branch to a target beyond the buffer completes is the decision D20 of the spec (log 10). -/
def Obligations.JccResult : Prop :=
  ∀ x ∈ ([(.jnz, 0xC2, fun f => !f.z), (.jz, 0xCA, fun f => f.z), (.jnc, 0xD2, fun f => !f.cy), (.jc, 0xDA, fun f => f.cy),
      (.jpo, 0xE2, fun f => !f.p), (.jpe, 0xEA, fun f => f.p), (.jp, 0xF2, fun f => !f.s), (.jm, 0xFA, fun f => f.s)] :
      List (Instr × Byte × (Flags → Bool))), ∀ s : State,
    decodeOpcode x.2.1 = x.1 ∧
    (x.2.2 s.flags = true → s.inBounds (s.pc + 1#16) → s.inBounds (s.pc + 2#16) →
      exec x.1 s = .next { s with pc := targetAt s }) ∧
    (x.2.2 s.flags = true → ¬ s.inBounds (s.pc + 1#16) →
      exec x.1 s = .fault (.outOfBoundsMemoryAccess (s.pc + 1#16) s.pc (some x.2.1))) ∧
    (x.2.2 s.flags = true → s.inBounds (s.pc + 1#16) → ¬ s.inBounds (s.pc + 2#16) →
      exec x.1 s = .fault (.outOfBoundsMemoryAccess (s.pc + 2#16) s.pc (some x.2.1))) ∧
    (x.2.2 s.flags = false → exec x.1 s = .next { s with pc := s.pc + 3#16 })

/-- For hlt and every state: opcode 0x76 decodes to it, and it completes with the state unchanged, PC included. A step as
a transaction ends Halted exactly when PC is inside the buffer and the byte there is 0x76; the state after it is the
state before it, and any number of further steps leaves it so. That the halt is a fourth outcome and that PC stays at
the HLT are the decisions D7 and D23 of the spec (log 5). The opcode bytes are the Intel 8080's, as the spec itself
marks (log 9). That nothing from outside, no interrupt, ends a halt is the decision D25 of the spec (log 16). -/
def Obligations.HltResult : Prop :=
  decodeOpcode 0x76 = .hlt ∧
  ∀ s : State, exec .hlt s = .next s ∧
    ((transact s).1 = .completed .halted ↔ s.inBounds s.pc ∧ s.byteAt s.pc = 0x76) ∧
    ((transact s).1 = .completed .halted → (transact s).2 = s ∧ ∀ k, StepsTo k s s)

/-- For ei and di and every state: opcode 0xFB decodes to ei and it completes with INTE = 1 and PC + 1; opcode 0xF3
decodes to di and it completes with INTE = 0 and PC + 1; nothing else changes. That these two instructions write the
latch is the decision D8 of the spec (log 15). The opcode bytes are the Intel 8080's, as the spec itself marks (log
9). -/
def Obligations.EiDiResult : Prop :=
  (decodeOpcode 0xFB = .ei ∧ decodeOpcode 0xF3 = .di) ∧
  ∀ s : State, exec .ei s = .next { s with inte := true, pc := s.pc + 1#16 } ∧
    exec .di s = .next { s with inte := false, pc := s.pc + 1#16 }

/-- Exactly 181 of the 256 opcode values decode to unimplemented. The meaning of unimplemented stops in every state with
UnimplementedOpcode, carrying the opcode value and PC. A step whose PC is inside the buffer and whose opcode byte
decodes to the unimplemented-opcode handler fails with UnimplementedOpcode, carrying that byte and PC. That exactly
these 181 values are unimplemented is the decision D1 of the spec (log 18), and that each is an instruction of its own
is this model's (log 8). -/
def Obligations.UnimplementedOpcodeFails : Prop :=
  ((List.range 256).filter fun n => decodeOpcode (BitVec.ofNat 8 n) = .unimplemented (BitVec.ofNat 8 n)).length = 181 ∧
  (∀ (op : Byte) (s : State), exec (.unimplemented op) s = .fault (.unimplementedOpcode op s.pc)) ∧
  ∀ (op : Byte) (s : State), s.inBounds s.pc → decodeOpcode (s.byteAt s.pc) = .unimplemented op →
    step s = .fault (.unimplementedOpcode (s.byteAt s.pc) s.pc)

/-- For every integer t and every carry class, the evaluator's sign is bit 7 of t mod 256: it is 1 iff t mod 256 is 128 or
more. -/
def Obligations.SignFlagIsBitSeven : Prop :=
  ∀ (t : Int) (cls : CarryClass),
    (evaluate t cls).sign = decide (t % 256 ≥ 128) ∧ (evaluate t cls).sign = (BitVec.ofInt 8 t).getLsbD 7

/-- parity8 of a byte is 1 iff the byte has an even number of 1 bits, which is 1 XOR each of its eight bits; it is 1 for
0x00 and 0 for a byte with exactly one bit set; and the evaluator's parity is parity8 of t mod 256. -/
def Obligations.ParityIsEvenNumberOfOnes : Prop :=
  (∀ v : Byte, parity8 v = evenOnes v ∧ (parity8 v = true ↔ 2 ∣ onesCount v)) ∧
  parity8 0x00 = true ∧ (∀ k : Fin 8, parity8 (BitVec.twoPow 8 k) = false) ∧
  ∀ (t : Int) (cls : CarryClass), (evaluate t cls).parity = parity8 (BitVec.ofInt 8 t)

/-- For every integer t and all flags: ARITH8 of the add class writes Z = (t mod 256 = 0), S = bit 7, P = parity, CY = (t
> 255); of the subtract class the same with CY = (t < 0); INCDEC8 writes Z, S and P alone; CARRY16 writes CY = (t >
65535) alone. No scope writes AC. That CY of the subtract class is the borrow, t < 0, is the decision D16 of the spec
(log 11). -/
def Obligations.FlagScopesWriteExactly : Prop :=
  ∀ (t : Int) (f : Flags),
    arith8 t .add8 f = ⟨decide (t % 256 = 0), decide (t % 256 ≥ 128), evenOnes (BitVec.ofInt 8 t), decide (t > 255), f.ac⟩ ∧
    arith8 t .sub8 f = ⟨decide (t % 256 = 0), decide (t % 256 ≥ 128), evenOnes (BitVec.ofInt 8 t), decide (t < 0), f.ac⟩ ∧
    incDec8 t f = ⟨decide (t % 256 = 0), decide (t % 256 ≥ 128), evenOnes (BitVec.ofInt 8 t), f.cy, f.ac⟩ ∧
    carry16 t f = ⟨f.z, f.s, f.p, decide (t > 65535), f.ac⟩

/-- For every ADD, ADC, SUB, SBB of a register or M, and ADI, ACI, SUI: when it gives a next state, every register but A
is unchanged, SP and INTE are unchanged, AC is unchanged, MEM_SIZE is unchanged and every byte of memory reads as
before. -/
def Obligations.AccumulatorFormsFrame : Prop :=
  ∀ i ∈ ([.addB, .addC, .addD, .addE, .addH, .addL, .addM, .addA, .adcB, .adcC, .adcD, .adcE, .adcH,
    .adcL, .adcM, .adcA, .subB, .subC, .subD, .subE, .subH, .subL, .subM, .subA, .sbbB, .sbbC,
    .sbbD, .sbbE, .sbbH, .sbbL, .sbbM, .sbbA, .adi, .aci, .sui] : List Instr), ∀ s t : State, exec i s = .next t →
    (∀ r, r ≠ .a → t.reg r = s.reg r) ∧ t.sp = s.sp ∧ t.inte = s.inte ∧ t.flags.ac = s.flags.ac ∧ KeepsMemory s t

/-- For every INR and DCR of a register, with that register: when it gives a next state, every other register, SP, INTE,
CY and AC are unchanged, and every byte of memory reads as before. -/
def Obligations.IncrementRegisterFrame : Prop :=
  ∀ x ∈ ([(.b, .inrB), (.b, .dcrB), (.c, .inrC), (.c, .dcrC), (.d, .inrD), (.d, .dcrD), (.e, .inrE), (.e, .dcrE),
      (.h, .inrH), (.h, .dcrH), (.l, .inrL), (.l, .dcrL), (.a, .inrA), (.a, .dcrA)] : List (Reg8 × Instr)),
    ∀ s t : State, exec x.2 s = .next t →
    (∀ r, r ≠ x.1 → t.reg r = s.reg r) ∧ t.sp = s.sp ∧ t.inte = s.inte ∧ t.flags.cy = s.flags.cy ∧
      t.flags.ac = s.flags.ac ∧ KeepsMemory s t

/-- For INR M and DCR M: when it gives a next state, the one byte stored to is the byte at HL of the state before. Every
other byte of memory reads as before, MEM_SIZE is unchanged, and every register, SP, INTE, CY and AC are unchanged.
That M is the byte at HL is the decision D4 of the spec (log 9). -/
def Obligations.StoringFormsFrame : Prop :=
  ∀ i ∈ ([.inrM, .dcrM] : List Instr), ∀ s t : State, exec i s = .next t →
    (∀ a : Nat, a ≠ (addrM s).toNat → t.mem.read a = s.mem.read a) ∧ t.mem.size = s.mem.size ∧
      (∀ r, t.reg r = s.reg r) ∧ t.sp = s.sp ∧ t.inte = s.inte ∧ t.flags.cy = s.flags.cy ∧ t.flags.ac = s.flags.ac

/-- For every INX and DCX with its pair, and every DAD with HL: when it gives a next state, every other pair (SP counted
as one), A, INTE and every flag are unchanged (for DAD every flag but CY), and every byte of memory reads as before.
That DAD takes SP is the decision D2 of the spec (log 9). -/
def Obligations.PairFormsFrame : Prop :=
  (∀ x ∈ ([(.bc, .inxB), (.bc, .dcxB), (.de, .inxD), (.de, .dcxD), (.hl, .inxH), (.hl, .dcxH), (.sp, .inxSp), (.sp, .dcxSp)] :
      List (RegPair × Instr)), ∀ s t : State, exec x.2 s = .next t →
    (∀ rp, rp ≠ x.1 → t.rp rp = s.rp rp) ∧ t.a = s.a ∧ t.inte = s.inte ∧ t.flags = s.flags ∧ KeepsMemory s t) ∧
  ∀ i ∈ ([.dadB, .dadD, .dadH, .dadSp] : List Instr), ∀ s t : State, exec i s = .next t →
    (∀ rp, rp ≠ .hl → t.rp rp = s.rp rp) ∧ t.a = s.a ∧ t.inte = s.inte ∧
      t.flags = ⟨s.flags.z, s.flags.s, s.flags.p, t.flags.cy, s.flags.ac⟩ ∧ KeepsMemory s t

/-- For JMP, the eight conditional jumps, HLT, EI and DI: when it gives a next state, every register, SP, all five flags
are unchanged, every byte of memory reads as before, and INTE is unchanged except by EI and DI. That EI and DI write
INTE is the decision D8 of the spec (log 15). That HLT writes nothing is the decision D7 of the spec (log 5). -/
def Obligations.BranchAndControlFrame : Prop :=
  ∀ i ∈ ([.jmp, .jnz, .jz, .jnc, .jc, .jpo, .jpe, .jp, .jm, .hlt, .ei, .di] : List Instr),
    ∀ s t : State, exec i s = .next t →
    (∀ r, t.reg r = s.reg r) ∧ t.sp = s.sp ∧ t.flags = s.flags ∧ (i ≠ .ei → i ≠ .di → t.inte = s.inte) ∧ KeepsMemory s t

/-- For every instruction, every state and every value x: a next state has the AC of the state before, and running the
instruction with AC replaced by x gives the same outcome with AC replaced by x. So AC keeps its launch value and
nothing depends on it. -/
def Obligations.AuxiliaryCarryIsInert : Prop :=
  ∀ (i : Instr) (s : State) (x : Bool),
    (∀ t, exec i s = .next t → t.flags.ac = s.flags.ac) ∧
    exec i (withAc x s) = mapNext (withAc x) (exec i s)

/-- For every instruction and state: a next state of any instruction but inxSp and dcxSp has the SP of the state before,
and for any instruction but inxSp, dcxSp and dadSp, running it with SP replaced by x gives the same outcome with SP
replaced by x. So no instruction uses SP as an address. -/
def Obligations.StackPointerIsAPlainCounter : Prop :=
  ∀ (i : Instr) (s : State) (x : Word),
    (i ≠ .inxSp → i ≠ .dcxSp → ∀ t, exec i s = .next t → t.sp = s.sp) ∧
    (i ≠ .inxSp → i ≠ .dcxSp → i ≠ .dadSp → exec i (withSp x s) = mapNext (withSp x) (exec i s))

/-- If two states differ in INTE and AC alone, then after any number of steps from each, either both have failed with the
same reason, or both have next states that again differ in INTE and AC alone. Nothing consumes the interrupt-enable
latch (the decisions D8 and D25 of the spec, log 15 and log 16). -/
def Obligations.LatchAndAcDoNotInterfere : Prop :=
  ∀ (k : Nat) (s s' : State), forgetInert s = forgetInert s' →
    (∃ t t', StepsTo k s t ∧ StepsTo k s' t' ∧ forgetInert t = forgetInert t') ∨
    (∃ f, runSteps k s = .fault f ∧ runSteps k s' = .fault f)

/-- For every state: when PC is inside the buffer, the byte there decodes to a well-formed instruction whose encoded
opcode is that byte, and step is exec of that instruction at that state, with nothing around it. When PC is MEM_SIZE
or more, step fails with OutOfBoundsMemoryAccess at PC, with PC and no opcode. That the record of a failed opcode
fetch has no opcode is the decision D10 of the spec (log 12). That the encoded opcode is the byte for each of the 181
unimplemented values too is this model's form, in which that instruction carries its opcode value (log 8). Well-formed
means that no value of R78 is called unimplemented, and the list of R78 is the decision D1 of the spec (log 18). -/
def Obligations.StepRunsDecodedInstruction : Prop :=
  ∀ s : State,
    (s.inBounds s.pc → (decodeOpcode (s.byteAt s.pc)).wf = true ∧
      encodeOpcode (decodeOpcode (s.byteAt s.pc)) = s.byteAt s.pc ∧
      step s = exec (decodeOpcode (s.byteAt s.pc)) s) ∧
    (¬ s.inBounds s.pc → step s = .fault (.outOfBoundsMemoryAccess s.pc s.pc none))

/-- For every well-formed line and every state whose buffer holds the line's encoded bytes at PC, PC + 1 and PC + 2 mod
65536: step is exec of the line's instruction, the immediate its handler fetches is the line's d8, and the target its
handler fetches is the line's a16. That the operand address wraps mod 65536 before the check is the decision D22 of
the spec (log 17). That an instruction and its operand bytes make a line is this model's form (log 4). -/
def Obligations.StepRunsEncodedLine : Prop :=
  ∀ (x : Line) (s : State), x.wf = true →
    (∀ (k : Nat) (h : k < (encode x).length),
      s.inBounds (s.pc + BitVec.ofNat 16 k) ∧ s.byteAt (s.pc + BitVec.ofNat 16 k) = (encode x)[k]) →
    step s = exec x.instr s ∧
    (∀ v, x.operand = .d8 v → immediate (encodeOpcode x.instr) s = .ok v) ∧
    (∀ v, x.operand = .a16 v → target (encodeOpcode x.instr) s = .ok v)

/-- One word of each family, written out from the spec's encoding of it, decodes to the line it stands for: ADD B, SBB M,
ADI 0x42, INR M, DCR A, INX SP, DCX D, DAD H, JMP 0x1234, JNZ 0x0100, HLT, EI, DI, and 0xDE as unimplemented. The
opcode bytes are the Intel 8080's, as the spec itself marks (log 9). That 0xDE, the 8080's SBI, is unimplemented is
the decision D1 of the spec (log 18), not the 8080's. That a line is an instruction with its operand bytes is this
model's form (log 4), and so is it that the unimplemented instruction carries its opcode value (log 8). -/
def Obligations.DecodedWordsAreRight : Prop :=
  decode [0b10000000] = .ok (⟨.addB, .none⟩, []) ∧ decode [0b10011110] = .ok (⟨.sbbM, .none⟩, []) ∧
  decode [0b11000110, 0x42] = .ok (⟨.adi, .d8 0x42⟩, []) ∧ decode [0b00110100] = .ok (⟨.inrM, .none⟩, []) ∧
  decode [0b00111101] = .ok (⟨.dcrA, .none⟩, []) ∧ decode [0b00110011] = .ok (⟨.inxSp, .none⟩, []) ∧
  decode [0b00011011] = .ok (⟨.dcxD, .none⟩, []) ∧ decode [0b00101001] = .ok (⟨.dadH, .none⟩, []) ∧
  decode [0b11000011, 0x34, 0x12] = .ok (⟨.jmp, .a16 0x1234⟩, []) ∧
  decode [0b11000010, 0x00, 0x01] = .ok (⟨.jnz, .a16 0x0100⟩, []) ∧
  decode [0b01110110] = .ok (⟨.hlt, .none⟩, []) ∧ decode [0b11111011] = .ok (⟨.ei, .none⟩, []) ∧
  decode [0b11110011] = .ok (⟨.di, .none⟩, []) ∧ decode [0xDE] = .ok (⟨.unimplemented 0xDE, .none⟩, [])

/-- For every well-formed line of every instruction, with every operand its format admits, and every list of bytes after
it: decode of the encoded bytes followed by that list answers that line and that list. That an instruction and its
operand bytes make a line is this model's form (log 4), and that the unimplemented instruction carries its opcode
value is too (log 8). The opcode bytes are the Intel 8080's, as the spec itself marks (log 9). Well-formed means that
no value of R78 is called unimplemented, and the list of R78 is the decision D1 of the spec (log 18). -/
def Obligations.DecodeOfEncodeIsIdentity : Prop :=
  ∀ (x : Line) (rest : List Byte), x.wf = true → decode (encode x ++ rest) = .ok (x, rest)

/-- For every list of bytes: if it decodes to a line and a rest, the line is well formed and its bytes followed by the
rest are that list. If it does not decode, it is empty or shorter than the length of the instruction its first byte
names. That an instruction and its operand bytes make a line is this model's form (log 4), and that the unimplemented
instruction carries its opcode value is too (log 8). The opcode bytes are the Intel 8080's, as the spec itself marks
(log 9). Well-formed means that no value of R78 is called unimplemented, and the list of R78 is the decision D1 of the
spec (log 18). -/
def Obligations.EncodeOfDecodeIsIdentity : Prop :=
  (∀ (bytes rest : List Byte) (x : Line), decode bytes = .ok (x, rest) → x.wf = true ∧ encode x ++ rest = bytes) ∧
  ∀ (bytes : List Byte) (e : DecodeError), decode bytes = .error e →
    bytes = [] ∨ ∃ op rest, bytes = op :: rest ∧ bytes.length < (decodeOpcode op).length

/-- The list of R78 has 75 values with no repeats. An opcode value decodes to unimplemented, carrying that value, exactly
when it is not in the list. Two opcode values that decode to the same instruction are equal. What is decoded is well
formed. The list of 75 is the decision D1 of the spec (log 18). That no two values decode to one instruction is this
model's, which has the unimplemented instruction carry its opcode value (log 8). The opcode bytes are the Intel
8080's, as the spec itself marks (log 9). -/
def Obligations.DecodeIsTotalAndUnambiguous : Prop :=
  implementedOpcodes.length = 75 ∧ implementedOpcodes.Nodup ∧
  (∀ op : Byte, (decodeOpcode op = .unimplemented op ↔ op ∉ implementedOpcodes) ∧
    (∀ op', decodeOpcode op = .unimplemented op' → op' = op) ∧ (decodeOpcode op).wf = true) ∧
  ∀ op op' : Byte, decodeOpcode op = decodeOpcode op' → op = op'

/-- The length is 2 for adi, aci and sui, 3 for jmp and the eight conditional jumps, and 1 for every other implemented
instruction. Whatever the state and opcode, a handler that ends Continue(n) has n equal to its instruction's length. -/
def Obligations.HandlersReportTheirLength : Prop :=
  (∀ i ∈ ([.adi, .aci, .sui] : List Instr), i.length = 2) ∧
  (∀ i ∈ ([.jmp, .jnz, .jz, .jnc, .jc, .jpo, .jpe, .jp, .jm] : List Instr), i.length = 3) ∧
  (∀ i : Instr, i ∉ ([.adi, .aci, .sui, .jmp, .jnz, .jz, .jnc, .jc, .jpo, .jpe, .jp, .jm] : List Instr) →
    (∀ op, i ≠ .unimplemented op) → i.length = 1) ∧
  ∀ (i : Instr) (op : Byte) (s t : State) (n : Nat), handlerOf i.form op s = .ok (.cont n, t) → n = i.length

/-- For all states: if a step as a transaction ends Continue(n) in t, then n is the length of the instruction whose opcode
byte is at PC, and the PC of t is (PC + n) mod 65536. -/
def Obligations.ContinueAdvancesPcByLength : Prop :=
  ∀ (s t : State) (n : Nat), transact s = (.completed (.cont n), t) →
    n = (decodeOpcode (s.byteAt s.pc)).length ∧ t.pc.toNat = (s.pc.toNat + n) % 65536

/-- For all states: if a step as a transaction ends Jumped in t, then the opcode at PC is that of JMP, or of a conditional
jump whose flag test holds, and t is the state before with PC the little-endian target: no further advance is made.
The opcode bytes are the Intel 8080's, as the spec itself marks (log 9). That the operand address wraps mod 65536
before the check is the decision D22 of the spec (log 17). -/
def Obligations.OnlyTakenBranchesJump : Prop :=
  ∀ s t : State, transact s = (.completed .jumped, t) →
    takenBranch (s.byteAt s.pc) s.flags = true ∧ t = { s with pc := targetAt s }

/-- For every state whose memory is in canonical form (a legal MEM_SIZE, addresses strictly rising and inside the buffer,
no cell that equals an unlisted byte): if a step answers a next state, its memory is in canonical form too, and
MEM_SIZE is unchanged. The canonical form is the model's own (log 1 and log 2). The fixed size is the spec's. -/
def Obligations.StepKeepsMemoryCanonical : Prop :=
  ∀ s t : State, s.Inv → step s = .next t → t.Inv ∧ t.mem.size = s.mem.size

/-- The invariant of the machine holds at State.reset. The canonical form (log 2) and the buffer at reset, of 65536 bytes
with nothing listed (log 1, log 2), are this model's own choices. -/
def Obligations.ResetIsCanonical : Prop := State.reset.Inv

/-- State.reset has A, B, C, D, E, H, L, SP and PC 0, the five flags and INTE 0. These are the default values of the
spec's decision D9 (log 3). MEM_SIZE is 65536 and every byte reads 0, which are this model's choices (log 1, log 2). -/
def Obligations.ResetValues : Prop :=
  (∀ r, State.reset.reg r = 0) ∧ State.reset.sp = 0 ∧ State.reset.pc = 0 ∧
  State.reset.flags = ⟨false, false, false, false, false⟩ ∧ State.reset.inte = false ∧
  State.reset.mem.size = 65536 ∧ ∀ a, State.reset.mem.read a = 0

/-- For every memory in canonical form, every address inside it and every byte: after the write, that address reads the
byte, every other address reads as before, and the memory is in canonical form again. The canonical form, and so that
a write keeps it, is this model's own choice (log 2). -/
def Obligations.MemoryReadsLastWrite : Prop :=
  ∀ (m : Memory) (a : Nat) (v : Byte), m.wf → a < m.size →
    (m.write a v).read a = v ∧ (∀ b, b ≠ a → (m.write a v).read b = m.read b) ∧ (m.write a v).wf

/-- For all memories in canonical form with one MEM_SIZE: if every address reads the same byte in both, they are the same
data. The canonical form is the model's own (log 2). -/
def Obligations.CanonicalMemoriesAreEqual : Prop :=
  ∀ m m' : Memory, m.wf → m'.wf → m.size = m'.size → (∀ a, m.read a = m'.read a) → m = m'

/-- For every image of 1 to 65536 bytes, every RESET_PC and all launch values: the constructed state has MEM_SIZE the
length of the image, each address reads the image's byte, memory is in canonical form, PC is RESET_PC, and every
register, flag and the latch has its launch value. Launch values and RESET_PC are the parameters of the spec's
decision D9, the image that of D21 (log 3, log 7). That memory is in canonical form is this model's own choice (log
2). -/
def Obligations.ConstructionLoadsTheImage : Prop :=
  ∀ (image : List Byte) (pc : Word) (v : Launch), 1 ≤ image.length → image.length ≤ 65536 →
    let s := State.construct image pc v
    s.mem.size = image.length ∧ (∀ (a : Nat) (h : a < image.length), s.mem.read a = image[a]) ∧ s.Inv ∧ s.pc = pc ∧
    (s.a = v.a ∧ s.b = v.b ∧ s.c = v.c ∧ s.d = v.d ∧ s.e = v.e ∧ s.h = v.h ∧ s.l = v.l ∧ s.sp = v.sp) ∧
    s.flags = ⟨v.z, v.s, v.p, v.cy, v.ac⟩ ∧ s.inte = v.inte

/-- For every state with canonical memory whose PC, PC + 1 and PC + 2 (mod 65536) are inside the buffer: after the load of
a table word, the next step runs the instruction the first byte decodes to, the operand bytes are the word's next
bytes, and PC and MEM_SIZE are unchanged. The load is this model's stand-in for the loader (log 7). That the operand
address wraps mod 65536 before the check is the decision D22 of the spec (log 17). The canonical form is this model's
own choice (log 2). -/
def Obligations.LoadedInstructionRuns : Prop :=
  ∀ (s : State) (nbits w : Nat), s.Inv → s.inBounds s.pc → s.inBounds (s.pc + 1#16) → s.inBounds (s.pc + 2#16) →
    let t := s.withFetchWord nbits w
    step t = exec (decodeOpcode (BitVec.ofNat 8 (w % 2 ^ nbits))) t ∧
    t.byteAt (t.pc + 1#16) = BitVec.ofNat 8 (w % 2 ^ nbits / 2 ^ 8) ∧
    t.byteAt (t.pc + 2#16) = BitVec.ofNat 8 (w % 2 ^ nbits / 2 ^ 16) ∧ t.pc = s.pc ∧ t.mem.size = s.mem.size

/-- For all states: if a step answers a next state in which some address reads another byte than before, then the opcode
at PC is 0x34 or 0x35 and the address is HL of the state before. That nothing else changes memory is the decision D15
of the spec (log 16). The opcode bytes are the Intel 8080's, as the spec itself marks (log 9). That M is the byte at
HL is the decision D4 of the spec (log 9). -/
def Obligations.OnlyIncrementsOfMemoryStore : Prop :=
  ∀ (s t : State) (a : Nat), step s = .next t → t.mem.read a ≠ s.mem.read a →
    (s.byteAt s.pc = 0x34 ∨ s.byteAt s.pc = 0x35) ∧ a = (addrM s).toNat

/-- For every state and failure: a step fails with it if and only if it is the first of these that applies: PC out of
bounds; the opcode unimplemented; for ADI, ACI, SUI, JMP and a taken conditional jump, PC + 1 out of bounds; for JMP
and a taken conditional jump, PC + 2 out of bounds; for ADD, ADC, SUB, SBB, INR and DCR of M, HL out of bounds; and
the record is the address, PC and opcode named for it. The order is the decision D6 of the spec (log 12). The opcode
bytes are the Intel 8080's, as the spec itself marks (log 9). That the operand address wraps mod 65536 before the
check is the decision D22 of the spec (log 17). That exactly the 75 values of R78 are implemented is the decision D1
of the spec (log 18). That M is the byte at HL is the decision D4 of the spec (log 9). That a failure records PC and
the opcode is the decision D10 of the spec (log 12). That a conditional jump that is not taken reads no operand byte,
and that no target is checked at the branch, are the decisions D12 and D20 of the spec (log 10). -/
def Obligations.StepFailsExactlyWhen : Prop :=
  ∀ (s : State) (f : Fault), step s = .fault f ↔
    (¬ s.inBounds s.pc ∧ f = .outOfBoundsMemoryAccess s.pc s.pc none) ∨
    (s.inBounds s.pc ∧
      ((s.byteAt s.pc ∉ implementedOpcodes ∧ f = .unimplementedOpcode (s.byteAt s.pc) s.pc) ∨
       ((s.byteAt s.pc ∈ ([0xC6, 0xCE, 0xD6] : List Byte) ∨ takenBranch (s.byteAt s.pc) s.flags = true) ∧
         ¬ s.inBounds (s.pc + 1#16) ∧ f = .outOfBoundsMemoryAccess (s.pc + 1#16) s.pc (some (s.byteAt s.pc))) ∨
       (takenBranch (s.byteAt s.pc) s.flags = true ∧ s.inBounds (s.pc + 1#16) ∧ ¬ s.inBounds (s.pc + 2#16) ∧
         f = .outOfBoundsMemoryAccess (s.pc + 2#16) s.pc (some (s.byteAt s.pc))) ∨
       (s.byteAt s.pc ∈ ([0x86, 0x8E, 0x96, 0x9E, 0x34, 0x35] : List Byte) ∧ ¬ s.inBounds (addrM s) ∧
         f = .outOfBoundsMemoryAccess (addrM s) s.pc (some (s.byteAt s.pc)))))

/-- No step is refused, in any state. In every state whose PC, PC + 1, PC + 2 (mod 65536) and HL are inside the buffer and
whose opcode byte is one of the 75, a step answers a next state, whatever the registers, flags and latch are: there is
no mode and no privilege (the decision D18 of the spec, log 16). That exactly the 75 values of R78 are implemented is
the decision D1 of the spec (log 18). That M is the byte at HL is the decision D4 of the spec (log 9). That the
operand address wraps mod 65536 before the check is the decision D22 of the spec (log 17). That a branch to a target
beyond the buffer completes is the decision D20 of the spec (log 10). That HLT answers a next state, equal to the
state, rests on the decisions D7 and D23 of the spec (log 5). The opcode bytes are the Intel 8080's, as the spec
itself marks (log 9). -/
def Obligations.ImplementedInstructionsRun : Prop :=
  (∀ (s : State) (r : Refusal), step s ≠ .refused r) ∧
  ∀ s : State, s.inBounds s.pc → s.inBounds (s.pc + 1#16) → s.inBounds (s.pc + 2#16) → s.inBounds (addrM s) →
    s.byteAt s.pc ∈ implementedOpcodes → ∃ t, step s = .next t

/-- For every state: step answers a next state exactly when the transaction completes, with that state after it, and fails
exactly when the transaction fails, with that reason; a failed transaction leaves the state as it was, so it fails the
same way again. That a failed transaction leaves the state as it was is the decision D6 of the spec (log 12), and that
it then fails the same way again the decision D11; that a failure is the host's fault is read from the spec by
inference (log 6). That HLT answers a next state, equal to the state, rests on the decisions D7 and D23 of the spec
(log 5). -/
def Obligations.TransactionAgreesWithStep : Prop :=
  ∀ s : State, match transact s with
    | (.completed _, t) => step s = .next t
    | (.failed f, t) => step s = .fault f ∧ t = s ∧ transact t = (.failed f, t)

/-- For every fuel and state: if run ends Halted in t, then t is reached in fewer steps than the fuel without a failure
and its next opcode is the HLT; if it ends Failed, then t is so reached and its step fails with that reason; if it
does not end, then t is what that many steps reach. More fuel does not change how a run ended. The fourth outcome and
the fuel are the decisions D23 and D24 of the spec (log 13). The opcode bytes are the Intel 8080's, as the spec itself
marks (log 9). That a halted state has PC still at the HLT, so that the byte there is 0x76, is the decision D7 of the
spec (log 5), which is a premise of that clause. That a failed run ends in the state whose step fails is its decision
D6 (log 12, log 6). -/
def Obligations.RunEndsAtHaltOrFailure : Prop :=
  ∀ (fuel : Nat) (s t : State),
    (run fuel s = (some .halted, t) → (∃ k, k < fuel ∧ StepsTo k s t) ∧ s.inBounds s.pc ∧ t.inBounds t.pc ∧
      t.byteAt t.pc = 0x76) ∧
    (∀ f, run fuel s = (some (.failed f), t) → (∃ k, k < fuel ∧ StepsTo k s t) ∧ step t = .fault f) ∧
    (run fuel s = (none, t) → StepsTo fuel s t) ∧
    (∀ reason more, run fuel s = (some reason, t) → run (fuel + more) s = (some reason, t))

/-- For each register B, C, D, E, H, L and every state: ADD of it and then SUB of it both complete, A is as at the start
with no exception for a wrap, CY = 1 iff the addition exceeded 255, Z, S and P are those of A, and PC has advanced by
2. The spec marks this law as derived from its rules. That CY after SUB is the borrow is the decision D16 of the spec
(log 11). -/
def Obligations.AddThenSubRestores : Prop :=
  ∀ x ∈ ([(.b, .addB, .subB), (.c, .addC, .subC), (.d, .addD, .subD), (.e, .addE, .subE), (.h, .addH, .subH), (.l, .addL, .subL)] :
      List (Reg8 × Instr × Instr)), ∀ s : State,
    ∃ t, exec x.2.1 s = .next t ∧ exec x.2.2 t = .next
      { s with flags := zspcy s.a (decide (s.a.toNat + (s.reg x.1).toNat > 255)) s.flags, pc := s.pc + 2#16 }

/-- For each pair and SP and every state: INX of it and then DCX of it both complete and leave the state as at the start
with PC advanced by 2, and so do DCX and then INX. The spec marks this law as derived from its rules. -/
def Obligations.InxAndDcxAreInverse : Prop :=
  ∀ x ∈ ([(.inxB, .dcxB), (.inxD, .dcxD), (.inxH, .dcxH), (.inxSp, .dcxSp)] : List (Instr × Instr)), ∀ s : State,
    (∃ t, exec x.1 s = .next t ∧ exec x.2 t = .next { s with pc := s.pc + 2#16 }) ∧
    (∃ t, exec x.2 s = .next t ∧ exec x.1 t = .next { s with pc := s.pc + 2#16 })

/-- For every state with canonical memory whose opcode is INR M, and its next state t: in any state with the memory of t
and PC at the address stored to, the step runs the instruction that the incremented byte names. In particular a step
sees the store of the step before it. The spec marks this as derived from its rules. The opcode bytes are the Intel
8080's, as the spec itself marks (log 9). The canonical form is this model's own choice (log 2). That M is the byte at
HL is the decision D4 of the spec (log 9). -/
def Obligations.StoresReachTheNextFetch : Prop :=
  ∀ s t u : State, s.Inv → s.byteAt s.pc = 0x34 → step s = .next t → u.mem = t.mem → u.pc = addrM s →
    step u = exec (decodeOpcode (s.byteAt (addrM s) + 1)) u

/-- For every state at a JMP whose operand bytes are inside the buffer and whose target is MEM_SIZE or more: the step
completes with PC the target and nothing else changed, and the next step fails with OutOfBoundsMemoryAccess at the
target, with the target as PC and no opcode. That the target is not checked at the branch is the decision D20 of the
spec (log 10). The opcode bytes are the Intel 8080's, as the spec itself marks (log 9). That a failure records PC and
the opcode is the decision D10 of the spec (log 12). That the operand address wraps mod 65536 before the check is the
decision D22 of the spec (log 17). -/
def Obligations.JumpTargetIsNotChecked : Prop :=
  ∀ s : State, s.inBounds s.pc → s.byteAt s.pc = 0xC3 → s.inBounds (s.pc + 1#16) → s.inBounds (s.pc + 2#16) →
    ¬ s.inBounds (targetAt s) →
    ∃ t, step s = .next t ∧ t = { s with pc := targetAt s } ∧
      step t = .fault (.outOfBoundsMemoryAccess (targetAt s) (targetAt s) none)

/-- For every state: each register selector reads its register. BC, DE and HL read as high register * 256 + low register.
Writing a value to a pair sets its high register to the high byte and its low register to the low byte, and leaves the
other pairs and SP alone. The letters of the pairs are the decision D3 of the spec (log 9). -/
def Obligations.PairsAreViewsOfRegisters : Prop :=
  ∀ (s : State) (v : Word),
    (s.reg .a = s.a ∧ s.reg .b = s.b ∧ s.reg .c = s.c ∧ s.reg .d = s.d ∧ s.reg .e = s.e ∧ s.reg .h = s.h ∧ s.reg .l = s.l) ∧
    (s.rp .bc).toNat = s.b.toNat * 256 + s.c.toNat ∧ (s.rp .de).toNat = s.d.toNat * 256 + s.e.toNat ∧
    (s.rp .hl).toNat = s.h.toNat * 256 + s.l.toNat ∧
    ((s.setRp .bc v).b.toNat = v.toNat / 256 ∧ (s.setRp .bc v).c.toNat = v.toNat % 256) ∧
    ((s.setRp .de v).d.toNat = v.toNat / 256 ∧ (s.setRp .de v).e.toNat = v.toNat % 256) ∧
    ((s.setRp .hl v).h.toNat = v.toNat / 256 ∧ (s.setRp .hl v).l.toNat = v.toNat % 256) ∧
    ∀ rp rp', (s.setRp rp v).rp rp' = if rp' = rp then v else s.rp rp'
end

