-- ==== Sys2Proof/Laws/Decode.lean ====
section
/-! SUPPORT. The opcode byte and the instruction determine each other. -/

namespace Sys2Proof

/-- An instruction's class and fields name it. -/
@[simp] theorem Instr.instr_form (i : Instr) : i.form.instr = i := by cases i <;> rfl

/-- A class and its fields are those of the instruction they name. -/
@[simp] theorem Form.form_instr (f : Form) : f.instr.form = f := by
  cases f with
  | alu f o => cases f <;> rcases o with r | _ <;> first | rfl | (cases r <;> rfl)
  | aluImm f => cases f <;> rfl
  | inr o => rcases o with r | _ <;> first | rfl | (cases r <;> rfl)
  | dcr o => rcases o with r | _ <;> first | rfl | (cases r <;> rfl)
  | inx rp => cases rp <;> rfl
  | dcx rp => cases rp <;> rfl
  | dad rp => cases rp <;> rfl
  | jcc cc => cases cc <;> rfl
  | _ => rfl

/-- Encoding what an opcode decodes to gives the opcode back. -/
theorem encodeOpcode_decodeOpcode : ∀ op : Byte, encodeOpcode (decodeOpcode op) = op := by decide

/-- What an opcode decodes to is well formed. -/
theorem decodeOpcode_wf : ∀ op : Byte, (decodeOpcode op).wf = true := by decide

/-- An opcode that is not one of the 75 decodes to unimplemented. -/
theorem decodeOpcode_unimplemented : ∀ op : Byte, isImplemented op = false → decodeOpcode op = .unimplemented op := by
  decide

end Sys2Proof
end

