-- ==== Sys2Proof/Laws/State.lean ====
section
/-! SUPPORT. What each field, register and pair of a state is after each update, so that no proof unfolds an update. -/

namespace Sys2Proof.Machine

variable (s : State)

@[simp] theorem State.setPc_a (v : Word) : (s.setPc v).a = s.a := rfl
@[simp] theorem State.setPc_b (v : Word) : (s.setPc v).b = s.b := rfl
@[simp] theorem State.setPc_c (v : Word) : (s.setPc v).c = s.c := rfl
@[simp] theorem State.setPc_d (v : Word) : (s.setPc v).d = s.d := rfl
@[simp] theorem State.setPc_e (v : Word) : (s.setPc v).e = s.e := rfl
@[simp] theorem State.setPc_h (v : Word) : (s.setPc v).h = s.h := rfl
@[simp] theorem State.setPc_l (v : Word) : (s.setPc v).l = s.l := rfl
@[simp] theorem State.setPc_sp (v : Word) : (s.setPc v).sp = s.sp := rfl
@[simp] theorem State.setPc_pc (v : Word) : (s.setPc v).pc = v := rfl
@[simp] theorem State.setPc_flags (v : Word) : (s.setPc v).flags = s.flags := rfl
@[simp] theorem State.setPc_inte (v : Word) : (s.setPc v).inte = s.inte := rfl
@[simp] theorem State.setPc_mem (v : Word) : (s.setPc v).mem = s.mem := rfl
@[simp] theorem State.reg_setPc (v : Word) (r : Reg8) : (s.setPc v).reg r = s.reg r := by cases r <;> rfl
@[simp] theorem State.rp_setPc (v : Word) (rp : RegPair) : (s.setPc v).rp rp = s.rp rp := by cases rp <;> rfl

@[simp] theorem State.setFlags_a (v : Flags) : (s.setFlags v).a = s.a := rfl
@[simp] theorem State.setFlags_b (v : Flags) : (s.setFlags v).b = s.b := rfl
@[simp] theorem State.setFlags_c (v : Flags) : (s.setFlags v).c = s.c := rfl
@[simp] theorem State.setFlags_d (v : Flags) : (s.setFlags v).d = s.d := rfl
@[simp] theorem State.setFlags_e (v : Flags) : (s.setFlags v).e = s.e := rfl
@[simp] theorem State.setFlags_h (v : Flags) : (s.setFlags v).h = s.h := rfl
@[simp] theorem State.setFlags_l (v : Flags) : (s.setFlags v).l = s.l := rfl
@[simp] theorem State.setFlags_sp (v : Flags) : (s.setFlags v).sp = s.sp := rfl
@[simp] theorem State.setFlags_pc (v : Flags) : (s.setFlags v).pc = s.pc := rfl
@[simp] theorem State.setFlags_flags (v : Flags) : (s.setFlags v).flags = v := rfl
@[simp] theorem State.setFlags_inte (v : Flags) : (s.setFlags v).inte = s.inte := rfl
@[simp] theorem State.setFlags_mem (v : Flags) : (s.setFlags v).mem = s.mem := rfl
@[simp] theorem State.reg_setFlags (v : Flags) (r : Reg8) : (s.setFlags v).reg r = s.reg r := by cases r <;> rfl
@[simp] theorem State.rp_setFlags (v : Flags) (rp : RegPair) : (s.setFlags v).rp rp = s.rp rp := by cases rp <;> rfl

@[simp] theorem State.setInte_a (v : Bool) : (s.setInte v).a = s.a := rfl
@[simp] theorem State.setInte_b (v : Bool) : (s.setInte v).b = s.b := rfl
@[simp] theorem State.setInte_c (v : Bool) : (s.setInte v).c = s.c := rfl
@[simp] theorem State.setInte_d (v : Bool) : (s.setInte v).d = s.d := rfl
@[simp] theorem State.setInte_e (v : Bool) : (s.setInte v).e = s.e := rfl
@[simp] theorem State.setInte_h (v : Bool) : (s.setInte v).h = s.h := rfl
@[simp] theorem State.setInte_l (v : Bool) : (s.setInte v).l = s.l := rfl
@[simp] theorem State.setInte_sp (v : Bool) : (s.setInte v).sp = s.sp := rfl
@[simp] theorem State.setInte_pc (v : Bool) : (s.setInte v).pc = s.pc := rfl
@[simp] theorem State.setInte_flags (v : Bool) : (s.setInte v).flags = s.flags := rfl
@[simp] theorem State.setInte_inte (v : Bool) : (s.setInte v).inte = v := rfl
@[simp] theorem State.setInte_mem (v : Bool) : (s.setInte v).mem = s.mem := rfl
@[simp] theorem State.reg_setInte (v : Bool) (r : Reg8) : (s.setInte v).reg r = s.reg r := by cases r <;> rfl
@[simp] theorem State.rp_setInte (v : Bool) (rp : RegPair) : (s.setInte v).rp rp = s.rp rp := by cases rp <;> rfl

@[simp] theorem State.setMem_a (v : Memory) : (s.setMem v).a = s.a := rfl
@[simp] theorem State.setMem_b (v : Memory) : (s.setMem v).b = s.b := rfl
@[simp] theorem State.setMem_c (v : Memory) : (s.setMem v).c = s.c := rfl
@[simp] theorem State.setMem_d (v : Memory) : (s.setMem v).d = s.d := rfl
@[simp] theorem State.setMem_e (v : Memory) : (s.setMem v).e = s.e := rfl
@[simp] theorem State.setMem_h (v : Memory) : (s.setMem v).h = s.h := rfl
@[simp] theorem State.setMem_l (v : Memory) : (s.setMem v).l = s.l := rfl
@[simp] theorem State.setMem_sp (v : Memory) : (s.setMem v).sp = s.sp := rfl
@[simp] theorem State.setMem_pc (v : Memory) : (s.setMem v).pc = s.pc := rfl
@[simp] theorem State.setMem_flags (v : Memory) : (s.setMem v).flags = s.flags := rfl
@[simp] theorem State.setMem_inte (v : Memory) : (s.setMem v).inte = s.inte := rfl
@[simp] theorem State.setMem_mem (v : Memory) : (s.setMem v).mem = v := rfl
@[simp] theorem State.reg_setMem (v : Memory) (r : Reg8) : (s.setMem v).reg r = s.reg r := by cases r <;> rfl
@[simp] theorem State.rp_setMem (v : Memory) (rp : RegPair) : (s.setMem v).rp rp = s.rp rp := by cases rp <;> rfl

@[simp] theorem State.setReg_sp (r : Reg8) (v : Byte) : (s.setReg r v).sp = s.sp := by cases r <;> rfl
@[simp] theorem State.setReg_pc (r : Reg8) (v : Byte) : (s.setReg r v).pc = s.pc := by cases r <;> rfl
@[simp] theorem State.setReg_flags (r : Reg8) (v : Byte) : (s.setReg r v).flags = s.flags := by cases r <;> rfl
@[simp] theorem State.setReg_inte (r : Reg8) (v : Byte) : (s.setReg r v).inte = s.inte := by cases r <;> rfl
@[simp] theorem State.setReg_mem (r : Reg8) (v : Byte) : (s.setReg r v).mem = s.mem := by cases r <;> rfl

/-- A register reads what was last written to it. -/
@[simp] theorem State.reg_setReg (r r' : Reg8) (v : Byte) :
    (s.setReg r v).reg r' = if r' = r then v else s.reg r' := by
  cases r <;> cases r' <;> rfl

@[simp] theorem State.setRp_a (rp : RegPair) (v : Word) : (s.setRp rp v).a = s.a := by cases rp <;> rfl
@[simp] theorem State.setRp_pc (rp : RegPair) (v : Word) : (s.setRp rp v).pc = s.pc := by cases rp <;> rfl
@[simp] theorem State.setRp_flags (rp : RegPair) (v : Word) : (s.setRp rp v).flags = s.flags := by cases rp <;> rfl
@[simp] theorem State.setRp_inte (rp : RegPair) (v : Word) : (s.setRp rp v).inte = s.inte := by cases rp <;> rfl
@[simp] theorem State.setRp_mem (rp : RegPair) (v : Word) : (s.setRp rp v).mem = s.mem := by cases rp <;> rfl

/-- The value of a pair of bytes: high byte times 256 plus low byte (R13). -/
theorem wordOfBytes_toNat (hi lo : Byte) : (wordOfBytes hi lo).toNat = hi.toNat * 256 + lo.toNat := by
  simp only [wordOfBytes, BitVec.toNat_append]
  rw [Nat.shiftLeft_eq, Nat.mul_comm, ← Nat.two_pow_add_eq_or_of_lt lo.isLt, Nat.mul_comm]

theorem high_toNat (v : Word) : (Word.high v).toNat = v.toNat / 256 := by
  have := v.isLt
  simp only [Word.high, BitVec.extractLsb'_toNat, Nat.shiftRight_eq_div_pow]
  omega

theorem low_toNat (v : Word) : (Word.low v).toNat = v.toNat % 256 := by
  simp [Word.low]

/-- A 16-bit value is its two bytes put together. -/
@[simp] theorem wordOfBytes_high_low (v : Word) : wordOfBytes (Word.high v) (Word.low v) = v := by
  apply BitVec.eq_of_toNat_eq
  rw [wordOfBytes_toNat, high_toNat, low_toNat]; omega

@[simp] theorem high_wordOfBytes (hi lo : Byte) : Word.high (wordOfBytes hi lo) = hi := by
  apply BitVec.eq_of_toNat_eq
  have := lo.isLt
  rw [high_toNat, wordOfBytes_toNat]; omega

@[simp] theorem low_wordOfBytes (hi lo : Byte) : Word.low (wordOfBytes hi lo) = lo := by
  apply BitVec.eq_of_toNat_eq
  have := lo.isLt
  rw [low_toNat, wordOfBytes_toNat]; omega

/-- A pair, or SP, reads what was last written to it, and the others are left alone. -/
@[simp] theorem State.rp_setRp (rp rp' : RegPair) (v : Word) :
    (s.setRp rp v).rp rp' = if rp' = rp then v else s.rp rp' := by
  cases rp <;> cases rp' <;> simp [State.setRp, State.rp]

/-! A byte of memory and the bounds do not depend on anything but memory. -/

@[simp] theorem State.inBounds_setPc (v : Word) (addr : Word) : (s.setPc v).inBounds addr = s.inBounds addr := rfl
@[simp] theorem State.byteAt_setPc (v : Word) (addr : Word) : (s.setPc v).byteAt addr = s.byteAt addr := rfl
@[simp] theorem State.inBounds_setFlags (v : Flags) (addr : Word) : (s.setFlags v).inBounds addr = s.inBounds addr := rfl
@[simp] theorem State.byteAt_setFlags (v : Flags) (addr : Word) : (s.setFlags v).byteAt addr = s.byteAt addr := rfl
@[simp] theorem State.inBounds_setInte (v : Bool) (addr : Word) : (s.setInte v).inBounds addr = s.inBounds addr := rfl
@[simp] theorem State.byteAt_setInte (v : Bool) (addr : Word) : (s.setInte v).byteAt addr = s.byteAt addr := rfl
@[simp] theorem State.inBounds_setReg (r : Reg8) (v : Byte) (addr : Word) :
    (s.setReg r v).inBounds addr = s.inBounds addr := by simp [State.inBounds]
@[simp] theorem State.byteAt_setReg (r : Reg8) (v : Byte) (addr : Word) :
    (s.setReg r v).byteAt addr = s.byteAt addr := by simp [State.byteAt]
@[simp] theorem State.inBounds_setRp (rp : RegPair) (v addr : Word) :
    (s.setRp rp v).inBounds addr = s.inBounds addr := by simp [State.inBounds]
@[simp] theorem State.byteAt_setRp (rp : RegPair) (v addr : Word) :
    (s.setRp rp v).byteAt addr = s.byteAt addr := by simp [State.byteAt]
@[simp] theorem State.inBounds_setByte (a : Word) (v : Byte) (addr : Word) :
    (s.setByte a v).inBounds addr = s.inBounds addr := rfl
@[simp] theorem State.setByte_mem (a : Word) (v : Byte) : (s.setByte a v).mem = s.mem.write a.toNat v := rfl
@[simp] theorem State.reg_setByte (a : Word) (v : Byte) (r : Reg8) : (s.setByte a v).reg r = s.reg r := by cases r <;> rfl
@[simp] theorem State.rp_setByte (a : Word) (v : Byte) (rp : RegPair) : (s.setByte a v).rp rp = s.rp rp := by
  cases rp <;> rfl
@[simp] theorem State.setByte_sp (a : Word) (v : Byte) : (s.setByte a v).sp = s.sp := rfl
@[simp] theorem State.setByte_pc (a : Word) (v : Byte) : (s.setByte a v).pc = s.pc := rfl
@[simp] theorem State.setByte_flags (a : Word) (v : Byte) : (s.setByte a v).flags = s.flags := rfl
@[simp] theorem State.setByte_inte (a : Word) (v : Byte) : (s.setByte a v).inte = s.inte := rfl

/-- Inside the buffer is an address below MEM_SIZE (R51). -/
theorem State.inBounds_iff (addr : Word) : s.inBounds addr = true ↔ addr.toNat < s.mem.size := by simp [State.inBounds]

end Sys2Proof.Machine
end

