-- ==== Sys2Proof/Laws/Memory.lean ====
section
/-! SUPPORT. The laws of the memory buffer: reads after writes, the canonical form, and images. -/

namespace Sys2Proof.Machine

/-- Addresses strictly rise along a list of cells. -/
abbrev CellsRise (cells : List Host.Cell) : Prop := cells.Pairwise (fun x y => x.1 < y.1)

/-- An address below every listed one reads as unlisted. -/
theorem cellsRead_below {cells : List Host.Cell} {a : Nat} (h : ∀ x ∈ cells, a < x.1) :
    cellsRead cells a = Config.unlistedByte := by
  induction cells with
  | nil => rfl
  | cons x rest ih =>
    have hx := h x (by simp)
    have : a ≠ x.1 := by omega
    simp only [cellsRead, this, if_false]
    exact ih fun y hy => h y (by simp [hy])

/-- A write leaves every other address alone. -/
theorem cellsRead_write_ne (cells : List Host.Cell) {a b : Nat} (v : Byte) (h : b ≠ a) :
    cellsRead (cellsWrite cells a v) b = cellsRead cells b := by
  induction cells with
  | nil => by_cases hv : v = Config.unlistedByte <;> simp [cellsWrite, cellsRead, hv, h]
  | cons x rest ih =>
    obtain ⟨k, w⟩ := x
    by_cases hk : a < k
    · by_cases hv : v = Config.unlistedByte <;> simp [cellsWrite, cellsRead, hk, hv, h]
    · by_cases hak : a = k
      · subst hak
        by_cases hv : v = Config.unlistedByte <;> simp [cellsWrite, cellsRead, hv, h]
      · simp only [cellsWrite, hk, hak, if_false, cellsRead, ih]

/-- In rising cells, a written address reads the byte written. -/
theorem cellsRead_write_self {cells : List Host.Cell} (hr : CellsRise cells) (a : Nat) (v : Byte) :
    cellsRead (cellsWrite cells a v) a = v := by
  induction cells with
  | nil => by_cases hv : v = Config.unlistedByte <;> simp [cellsWrite, cellsRead, hv]
  | cons x rest ih =>
    obtain ⟨k, w⟩ := x
    obtain ⟨hx, hrest⟩ := List.pairwise_cons.mp hr
    by_cases hk : a < k
    · have hb : cellsRead ((k, w) :: rest) a = Config.unlistedByte :=
        cellsRead_below fun y hy => by
          rcases List.mem_cons.mp hy with rfl | hy
          · exact hk
          · exact Nat.lt_trans hk (hx y hy)
      by_cases hv : v = Config.unlistedByte
      · simp only [cellsWrite, hk, if_true, hv, hb]
      · simp [cellsWrite, hk, hv, cellsRead]
    · by_cases hak : a = k
      · subst hak
        have hb : cellsRead rest a = Config.unlistedByte := cellsRead_below hx
        by_cases hv : v = Config.unlistedByte
        · simp only [cellsWrite, hk, if_false, if_true, hv, hb]
        · simp [cellsWrite, hv, cellsRead]
      · simp only [cellsWrite, hk, hak, if_false, cellsRead, ih hrest]

/-- What a write can add to a list of cells. -/
theorem mem_cellsWrite {cells : List Host.Cell} {a : Nat} {v : Byte} {x : Host.Cell}
    (h : x ∈ cellsWrite cells a v) : x ∈ cells ∨ x = (a, v) ∧ v ≠ Config.unlistedByte := by
  induction cells with
  | nil =>
    by_cases hv : v = Config.unlistedByte <;> simp_all [cellsWrite]
  | cons y rest ih =>
    obtain ⟨k, w⟩ := y
    simp only [cellsWrite] at h
    split at h
    · split at h
      · exact .inl h
      · rcases List.mem_cons.mp h with rfl | h
        · exact .inr ⟨rfl, ‹_›⟩
        · exact .inl h
    · split at h
      · split at h
        · exact .inl (List.mem_cons_of_mem _ h)
        · rcases List.mem_cons.mp h with rfl | h
          · exact .inr ⟨rfl, ‹_›⟩
          · exact .inl (List.mem_cons_of_mem _ h)
      · rcases List.mem_cons.mp h with rfl | h
        · exact .inl (by simp)
        · rcases ih h with h | h
          · exact .inl (List.mem_cons_of_mem _ h)
          · exact .inr h

/-- A write keeps the addresses rising. -/
theorem cellsWrite_rise {cells : List Host.Cell} (hr : CellsRise cells) (a : Nat) (v : Byte) :
    CellsRise (cellsWrite cells a v) := by
  induction cells with
  | nil => by_cases hv : v = Config.unlistedByte <;> simp [cellsWrite, hv]
  | cons x rest ih =>
    obtain ⟨k, w⟩ := x
    obtain ⟨hx, hrest⟩ := List.pairwise_cons.mp hr
    simp only [cellsWrite]
    split
    next hk =>
      split
      · exact hr
      · refine List.pairwise_cons.mpr ⟨fun y hy => ?_, hr⟩
        rcases List.mem_cons.mp hy with rfl | hy
        · exact hk
        · exact Nat.lt_trans hk (hx y hy)
    next hk =>
      split
      next hak =>
        subst hak
        split
        · exact hrest
        · exact List.pairwise_cons.mpr ⟨hx, hrest⟩
      next hak =>
        refine List.pairwise_cons.mpr ⟨fun y hy => ?_, ih hrest⟩
        rcases mem_cellsWrite hy with hy | ⟨rfl, -⟩
        · exact hx y hy
        · simp only; omega

@[simp] theorem Memory.size_write (m : Memory) (a : Nat) (v : Byte) : (m.write a v).size = m.size := rfl

theorem Memory.read_write_ne (m : Memory) {a b : Nat} (v : Byte) (h : b ≠ a) : (m.write a v).read b = m.read b :=
  cellsRead_write_ne m.cells v h

theorem Memory.read_write_self {m : Memory} (hm : m.wf) (a : Nat) (v : Byte) : (m.write a v).read a = v :=
  cellsRead_write_self hm.2.1 a v

/-- A write inside the buffer keeps the canonical form. -/
theorem Memory.wf_write {m : Memory} (hm : m.wf) {a : Nat} (ha : a < m.size) (v : Byte) : (m.write a v).wf := by
  refine ⟨hm.1, cellsWrite_rise hm.2.1 a v, fun x hx => ?_⟩
  rcases mem_cellsWrite hx with hx | ⟨rfl, hv⟩
  · exact hm.2.2 x hx
  · exact ⟨ha, hv⟩

/-- The cells of an image start at its first address and end before its last. -/
theorem mem_imageCells {k : Nat} {image : List Byte} {x : Host.Cell} (h : x ∈ imageCells k image) :
    k ≤ x.1 ∧ x.1 < k + image.length ∧ x.2 ≠ Config.unlistedByte := by
  induction image generalizing k with
  | nil => simp [imageCells] at h
  | cons v rest ih =>
    simp only [imageCells] at h
    split at h
    · have := ih h
      simp only [List.length_cons]
      exact ⟨by omega, by omega, this.2.2⟩
    · rcases List.mem_cons.mp h with rfl | h
      · exact ⟨Nat.le_refl _, by simp only [List.length_cons]; omega, ‹_›⟩
      · have := ih h
        simp only [List.length_cons]
        exact ⟨by omega, by omega, this.2.2⟩

theorem imageCells_rise (k : Nat) (image : List Byte) : CellsRise (imageCells k image) := by
  induction image generalizing k with
  | nil => exact List.Pairwise.nil
  | cons v rest ih =>
    simp only [imageCells]
    split
    · exact ih (k + 1)
    · exact List.pairwise_cons.mpr ⟨fun y hy => (mem_imageCells hy).1, ih (k + 1)⟩

/-- An image's cells read its bytes. -/
theorem cellsRead_image (k : Nat) (image : List Byte) {j : Nat} (h : j < image.length) :
    cellsRead (imageCells k image) (k + j) = image[j] := by
  induction image generalizing k j with
  | nil => simp at h
  | cons v rest ih =>
    cases j with
    | zero =>
      simp only [imageCells, Nat.add_zero, List.getElem_cons_zero]
      split
      next hv => rw [hv]; exact cellsRead_below fun y hy => (mem_imageCells hy).1
      next hv => simp [cellsRead]
    | succ j =>
      have hj : j < rest.length := by simpa using h
      have e : k + (j + 1) = k + 1 + j := by omega
      have := ih (k + 1) hj
      simp only [imageCells, e, List.getElem_cons_succ]
      split
      · exact this
      · simp only [cellsRead]
        rw [if_neg (by omega)]
        exact this

/-- A buffer made from an image of legal length is in canonical form. -/
theorem Memory.wf_ofImage {image : List Byte} (h1 : 1 ≤ image.length) (h2 : image.length ≤ Config.maxMemSize) :
    (Memory.ofImage image).wf := by
  refine ⟨⟨h1, h2⟩, imageCells_rise 0 image, fun x hx => ?_⟩
  have := mem_imageCells hx
  exact ⟨by rw [Nat.zero_add] at this; exact this.2.1, this.2.2⟩

/-- A buffer made from an image reads the image's bytes. -/
theorem Memory.read_ofImage {image : List Byte} {a : Nat} (h : a < image.length) :
    (Memory.ofImage image).read a = image[a] := by
  have := cellsRead_image 0 image h
  simpa [Memory.read, Memory.ofImage] using this

end Sys2Proof.Machine
end

