-- ==== Sys2Proof/Laws/Ops.lean ====
section
/-! SUPPORT. One lemma per shared operation that says when it answers, and with what. -/

namespace Sys2Proof.Machine

variable {s t : State} {addr : Word} {op : Byte} {o : Option Byte} {v : Byte} {f : Fault}

theorem memRead_ok (h : s.inBounds addr) : memRead addr o s = .ok (s.byteAt addr) := if_pos h

theorem memRead_oob (h : ¬ s.inBounds addr) :
    memRead addr o s = .error (.outOfBoundsMemoryAccess addr s.pc o) := if_neg h

/-- A memory read answers exactly inside the buffer, with the byte there. -/
theorem memRead_eq_ok : memRead addr o s = .ok v ↔ s.inBounds addr ∧ s.byteAt addr = v := by
  by_cases h : s.inBounds addr
  · simp [memRead_ok h, h]
  · simp [memRead_oob h, h]

/-- A memory read fails exactly outside the buffer, with the address, PC and opcode. -/
theorem memRead_eq_error :
    memRead addr o s = .error f ↔ ¬ s.inBounds addr ∧ .outOfBoundsMemoryAccess addr s.pc o = f := by
  by_cases h : s.inBounds addr
  · simp [memRead_ok h, h]
  · simp [memRead_oob h, h]

/-- A memory write answers exactly inside the buffer, with the byte stored. -/
theorem memWrite_eq_ok :
    memWrite addr v o s = .ok t ↔ s.inBounds addr ∧ s.setByte addr v = t := by
  by_cases h : s.inBounds addr <;> simp [memWrite, raiseOutOfBounds, h]

theorem memWrite_ok (h : s.inBounds addr) : memWrite addr v o s = .ok (s.setByte addr v) := if_pos h

theorem fetchByte_eq (k : Nat) : fetchByte k op s = memRead (s.pc + BitVec.ofNat 16 k) (some op) s := rfl

@[simp] theorem src_reg (r : Reg8) : src (.reg r) op s = .ok (s.reg r) := rfl

@[simp] theorem src_m : src .m op s = memRead (addrM s) (some op) s := rfl

theorem immediate_eq : immediate op s = memRead (s.pc + 1#16) (some op) s := rfl

/-- A target whose two bytes are inside the buffer: byte 2 high, byte 1 low. -/
theorem target_ok (h1 : s.inBounds (s.pc + 1#16)) (h2 : s.inBounds (s.pc + 2#16)) :
    target op s = .ok (wordOfBytes (s.byteAt (s.pc + 2#16)) (s.byteAt (s.pc + 1#16))) := by
  simp [target, fetchByte_eq, memRead_ok h1, memRead_ok h2]

theorem target_low_oob (h1 : ¬ s.inBounds (s.pc + 1#16)) :
    target op s = .error (.outOfBoundsMemoryAccess (s.pc + 1#16) s.pc (some op)) := by
  simp [target, fetchByte_eq, memRead_oob h1]

theorem target_high_oob (h1 : s.inBounds (s.pc + 1#16)) (h2 : ¬ s.inBounds (s.pc + 2#16)) :
    target op s = .error (.outOfBoundsMemoryAccess (s.pc + 2#16) s.pc (some op)) := by
  simp [target, fetchByte_eq, memRead_ok h1, memRead_oob h2]

/-- A target is answered exactly when both bytes are inside the buffer. -/
theorem target_eq_ok {a : Word} : target op s = .ok a ↔ s.inBounds (s.pc + 1#16) ∧ s.inBounds (s.pc + 2#16) ∧
    wordOfBytes (s.byteAt (s.pc + 2#16)) (s.byteAt (s.pc + 1#16)) = a := by
  by_cases h1 : s.inBounds (s.pc + 1#16)
  · by_cases h2 : s.inBounds (s.pc + 2#16)
    · simp [target_ok h1 h2, h1, h2]
    · simp [target_high_oob h1 h2, h1, h2]
  · simp [target_low_oob h1, h1]

/-- A target fails at the first of its bytes that is outside the buffer. -/
theorem target_eq_error : target op s = .error f ↔
    (¬ s.inBounds (s.pc + 1#16) ∧ .outOfBoundsMemoryAccess (s.pc + 1#16) s.pc (some op) = f) ∨
    (s.inBounds (s.pc + 1#16) ∧ ¬ s.inBounds (s.pc + 2#16) ∧ .outOfBoundsMemoryAccess (s.pc + 2#16) s.pc (some op) = f) := by
  by_cases h1 : s.inBounds (s.pc + 1#16)
  · by_cases h2 : s.inBounds (s.pc + 2#16)
    · simp [target_ok h1 h2, h1, h2]
    · simp [target_high_oob h1 h2, h1, h2]
  · simp [target_low_oob h1, h1]

/-- Running a handler gives a next state exactly when it ends without a failure, with PC advanced as its ending says. -/
theorem runHandler_eq_next {h : Handler} :
    runHandler op h s = .next t ↔ ∃ e u, h op s = .ok (e, u) ∧ advance s.pc e u = t := by
  unfold runHandler
  split <;> rename_i heq <;> simp [heq]

/-- Running a handler fails exactly when it does. -/
theorem runHandler_eq_fault {h : Handler} : runHandler op h s = .fault f ↔ h op s = .error f := by
  unfold runHandler
  split <;> rename_i heq <;> simp [heq]

theorem runHandler_ne_refused {h : Handler} {r : Refusal} : runHandler op h s ≠ .refused r := by
  unfold runHandler
  split <;> simp

@[simp] theorem advance_cont (pc0 : Word) (n : Nat) (t : State) :
    advance pc0 (.cont n) t = t.setPc (pc0 + BitVec.ofNat 16 n) := rfl

@[simp] theorem advance_jumped (pc0 : Word) (t : State) : advance pc0 .jumped t = t := rfl

@[simp] theorem advance_halted (pc0 : Word) (t : State) : advance pc0 .halted t = t := rfl

end Sys2Proof.Machine
end

