-- ==== Sys2Proof/Laws/PerInstr.lean ====
section
/-! SUPPORT. Facts about every instruction as syntax, one lemma per constructor. -/

/-- A well-formed instruction is what its encoded opcode decodes to. -/
def Sys2Proof.Laws.OpcodeRoundTrip.Statement (i : Sys2Proof.Instr) : Prop :=
  i.wf = true → Sys2Proof.decodeOpcode (Sys2Proof.encodeOpcode i) = i

namespace Sys2Proof.Laws.OpcodeRoundTrip

theorem addB : Statement .addB := by intro; rfl
theorem addC : Statement .addC := by intro; rfl
theorem addD : Statement .addD := by intro; rfl
theorem addE : Statement .addE := by intro; rfl
theorem addH : Statement .addH := by intro; rfl
theorem addL : Statement .addL := by intro; rfl
theorem addM : Statement .addM := by intro; rfl
theorem addA : Statement .addA := by intro; rfl
theorem adcB : Statement .adcB := by intro; rfl
theorem adcC : Statement .adcC := by intro; rfl
theorem adcD : Statement .adcD := by intro; rfl
theorem adcE : Statement .adcE := by intro; rfl
theorem adcH : Statement .adcH := by intro; rfl
theorem adcL : Statement .adcL := by intro; rfl
theorem adcM : Statement .adcM := by intro; rfl
theorem adcA : Statement .adcA := by intro; rfl
theorem subB : Statement .subB := by intro; rfl
theorem subC : Statement .subC := by intro; rfl
theorem subD : Statement .subD := by intro; rfl
theorem subE : Statement .subE := by intro; rfl
theorem subH : Statement .subH := by intro; rfl
theorem subL : Statement .subL := by intro; rfl
theorem subM : Statement .subM := by intro; rfl
theorem subA : Statement .subA := by intro; rfl
theorem sbbB : Statement .sbbB := by intro; rfl
theorem sbbC : Statement .sbbC := by intro; rfl
theorem sbbD : Statement .sbbD := by intro; rfl
theorem sbbE : Statement .sbbE := by intro; rfl
theorem sbbH : Statement .sbbH := by intro; rfl
theorem sbbL : Statement .sbbL := by intro; rfl
theorem sbbM : Statement .sbbM := by intro; rfl
theorem sbbA : Statement .sbbA := by intro; rfl
theorem adi : Statement .adi := by intro; rfl
theorem aci : Statement .aci := by intro; rfl
theorem sui : Statement .sui := by intro; rfl
theorem inrB : Statement .inrB := by intro; rfl
theorem inrC : Statement .inrC := by intro; rfl
theorem inrD : Statement .inrD := by intro; rfl
theorem inrE : Statement .inrE := by intro; rfl
theorem inrH : Statement .inrH := by intro; rfl
theorem inrL : Statement .inrL := by intro; rfl
theorem inrM : Statement .inrM := by intro; rfl
theorem inrA : Statement .inrA := by intro; rfl
theorem dcrB : Statement .dcrB := by intro; rfl
theorem dcrC : Statement .dcrC := by intro; rfl
theorem dcrD : Statement .dcrD := by intro; rfl
theorem dcrE : Statement .dcrE := by intro; rfl
theorem dcrH : Statement .dcrH := by intro; rfl
theorem dcrL : Statement .dcrL := by intro; rfl
theorem dcrM : Statement .dcrM := by intro; rfl
theorem dcrA : Statement .dcrA := by intro; rfl
theorem inxB : Statement .inxB := by intro; rfl
theorem inxD : Statement .inxD := by intro; rfl
theorem inxH : Statement .inxH := by intro; rfl
theorem inxSp : Statement .inxSp := by intro; rfl
theorem dcxB : Statement .dcxB := by intro; rfl
theorem dcxD : Statement .dcxD := by intro; rfl
theorem dcxH : Statement .dcxH := by intro; rfl
theorem dcxSp : Statement .dcxSp := by intro; rfl
theorem dadB : Statement .dadB := by intro; rfl
theorem dadD : Statement .dadD := by intro; rfl
theorem dadH : Statement .dadH := by intro; rfl
theorem dadSp : Statement .dadSp := by intro; rfl
theorem jmp : Statement .jmp := by intro; rfl
theorem jnz : Statement .jnz := by intro; rfl
theorem jz : Statement .jz := by intro; rfl
theorem jnc : Statement .jnc := by intro; rfl
theorem jc : Statement .jc := by intro; rfl
theorem jpo : Statement .jpo := by intro; rfl
theorem jpe : Statement .jpe := by intro; rfl
theorem jp : Statement .jp := by intro; rfl
theorem jm : Statement .jm := by intro; rfl
theorem hlt : Statement .hlt := by intro; rfl
theorem ei : Statement .ei := by intro; rfl
theorem di : Statement .di := by intro; rfl
theorem unimplemented (opcode : Byte) : Statement (.unimplemented opcode) := by
  intro h
  refine decodeOpcode_unimplemented opcode ?_
  simpa [Instr.wf, Instr.form, Form.wf] using h

end Sys2Proof.Laws.OpcodeRoundTrip

namespace Sys2Proof

/-- Every well-formed instruction is what its encoded opcode decodes to. -/
theorem decodeOpcode_encodeOpcode (i : Instr) (h : i.wf = true) : decodeOpcode (encodeOpcode i) = i := by
  cases i with
  | addB => exact Laws.OpcodeRoundTrip.addB h
  | addC => exact Laws.OpcodeRoundTrip.addC h
  | addD => exact Laws.OpcodeRoundTrip.addD h
  | addE => exact Laws.OpcodeRoundTrip.addE h
  | addH => exact Laws.OpcodeRoundTrip.addH h
  | addL => exact Laws.OpcodeRoundTrip.addL h
  | addM => exact Laws.OpcodeRoundTrip.addM h
  | addA => exact Laws.OpcodeRoundTrip.addA h
  | adcB => exact Laws.OpcodeRoundTrip.adcB h
  | adcC => exact Laws.OpcodeRoundTrip.adcC h
  | adcD => exact Laws.OpcodeRoundTrip.adcD h
  | adcE => exact Laws.OpcodeRoundTrip.adcE h
  | adcH => exact Laws.OpcodeRoundTrip.adcH h
  | adcL => exact Laws.OpcodeRoundTrip.adcL h
  | adcM => exact Laws.OpcodeRoundTrip.adcM h
  | adcA => exact Laws.OpcodeRoundTrip.adcA h
  | subB => exact Laws.OpcodeRoundTrip.subB h
  | subC => exact Laws.OpcodeRoundTrip.subC h
  | subD => exact Laws.OpcodeRoundTrip.subD h
  | subE => exact Laws.OpcodeRoundTrip.subE h
  | subH => exact Laws.OpcodeRoundTrip.subH h
  | subL => exact Laws.OpcodeRoundTrip.subL h
  | subM => exact Laws.OpcodeRoundTrip.subM h
  | subA => exact Laws.OpcodeRoundTrip.subA h
  | sbbB => exact Laws.OpcodeRoundTrip.sbbB h
  | sbbC => exact Laws.OpcodeRoundTrip.sbbC h
  | sbbD => exact Laws.OpcodeRoundTrip.sbbD h
  | sbbE => exact Laws.OpcodeRoundTrip.sbbE h
  | sbbH => exact Laws.OpcodeRoundTrip.sbbH h
  | sbbL => exact Laws.OpcodeRoundTrip.sbbL h
  | sbbM => exact Laws.OpcodeRoundTrip.sbbM h
  | sbbA => exact Laws.OpcodeRoundTrip.sbbA h
  | adi => exact Laws.OpcodeRoundTrip.adi h
  | aci => exact Laws.OpcodeRoundTrip.aci h
  | sui => exact Laws.OpcodeRoundTrip.sui h
  | inrB => exact Laws.OpcodeRoundTrip.inrB h
  | inrC => exact Laws.OpcodeRoundTrip.inrC h
  | inrD => exact Laws.OpcodeRoundTrip.inrD h
  | inrE => exact Laws.OpcodeRoundTrip.inrE h
  | inrH => exact Laws.OpcodeRoundTrip.inrH h
  | inrL => exact Laws.OpcodeRoundTrip.inrL h
  | inrM => exact Laws.OpcodeRoundTrip.inrM h
  | inrA => exact Laws.OpcodeRoundTrip.inrA h
  | dcrB => exact Laws.OpcodeRoundTrip.dcrB h
  | dcrC => exact Laws.OpcodeRoundTrip.dcrC h
  | dcrD => exact Laws.OpcodeRoundTrip.dcrD h
  | dcrE => exact Laws.OpcodeRoundTrip.dcrE h
  | dcrH => exact Laws.OpcodeRoundTrip.dcrH h
  | dcrL => exact Laws.OpcodeRoundTrip.dcrL h
  | dcrM => exact Laws.OpcodeRoundTrip.dcrM h
  | dcrA => exact Laws.OpcodeRoundTrip.dcrA h
  | inxB => exact Laws.OpcodeRoundTrip.inxB h
  | inxD => exact Laws.OpcodeRoundTrip.inxD h
  | inxH => exact Laws.OpcodeRoundTrip.inxH h
  | inxSp => exact Laws.OpcodeRoundTrip.inxSp h
  | dcxB => exact Laws.OpcodeRoundTrip.dcxB h
  | dcxD => exact Laws.OpcodeRoundTrip.dcxD h
  | dcxH => exact Laws.OpcodeRoundTrip.dcxH h
  | dcxSp => exact Laws.OpcodeRoundTrip.dcxSp h
  | dadB => exact Laws.OpcodeRoundTrip.dadB h
  | dadD => exact Laws.OpcodeRoundTrip.dadD h
  | dadH => exact Laws.OpcodeRoundTrip.dadH h
  | dadSp => exact Laws.OpcodeRoundTrip.dadSp h
  | jmp => exact Laws.OpcodeRoundTrip.jmp h
  | jnz => exact Laws.OpcodeRoundTrip.jnz h
  | jz => exact Laws.OpcodeRoundTrip.jz h
  | jnc => exact Laws.OpcodeRoundTrip.jnc h
  | jc => exact Laws.OpcodeRoundTrip.jc h
  | jpo => exact Laws.OpcodeRoundTrip.jpo h
  | jpe => exact Laws.OpcodeRoundTrip.jpe h
  | jp => exact Laws.OpcodeRoundTrip.jp h
  | jm => exact Laws.OpcodeRoundTrip.jm h
  | hlt => exact Laws.OpcodeRoundTrip.hlt h
  | ei => exact Laws.OpcodeRoundTrip.ei h
  | di => exact Laws.OpcodeRoundTrip.di h
  | unimplemented op => exact Laws.OpcodeRoundTrip.unimplemented op h

end Sys2Proof
end

