-- ==== Sys2Proof/Laws/Exec.lean ====
section
/-! SUPPORT. What each handler can do, said once; that `exec` is the handler of the instruction's fields run by the engine; and
what a step can do. -/

namespace Sys2Proof.Machine

variable {s t : State} {op : Byte} {e : Completion} {f : Fault}

/-- An accumulator form of r or M that ends: the operand was there, and A and the flags took the result. -/
theorem aluHandler_eq_ok {f : AluOp} {o : Operand8} :
    aluHandler f o op s = .ok (e, t) ↔ ∃ v, src o op s = .ok v ∧ e = .cont 1 ∧ t = accumulate f v s := by
  unfold aluHandler
  split <;> rename_i h <;> simp [h, eq_comm]

theorem aluHandler_eq_error {g : AluOp} {o : Operand8} : aluHandler g o op s = .error f ↔ src o op s = .error f := by
  unfold aluHandler
  split <;> rename_i h <;> simp [h]

/-- An immediate form that ends. -/
theorem immHandler_eq_ok {f : ImmOp} :
    immHandler f op s = .ok (e, t) ↔ ∃ v, immediate op s = .ok v ∧ e = .cont 2 ∧ t = accumulate (immAluOp f) v s := by
  unfold immHandler
  split <;> rename_i h <;> simp [h, eq_comm]

theorem immHandler_eq_error {g : ImmOp} : immHandler g op s = .error f ↔ immediate op s = .error f := by
  unfold immHandler
  split <;> rename_i h <;> simp [h]

theorem incDecHandler_reg (delta : Int) (r : Reg8) : incDecHandler delta (.reg r) op s =
    .ok (.cont 1, (s.setReg r (BitVec.ofInt 8 ((s.reg r).toNat + delta))).setFlags
      (incDec8 ((s.reg r).toNat + delta) s.flags)) := rfl

/-- INR M and DCR M with HL inside the buffer: the write never raises (R52). -/
theorem incDecHandler_m_ok (delta : Int) (h : s.inBounds (addrM s)) : incDecHandler delta .m op s =
    .ok (.cont 1, (s.setByte (addrM s)
      (BitVec.ofInt 8 ((s.byteAt (addrM s)).toNat + delta))).setFlags
      (incDec8 ((s.byteAt (addrM s)).toNat + delta) s.flags)) := by
  simp [incDecHandler, memRead_ok h, memWrite_ok h]

theorem incDecHandler_m_oob (delta : Int) (h : ¬ s.inBounds (addrM s)) :
    incDecHandler delta .m op s = .error (.outOfBoundsMemoryAccess (addrM s) s.pc (some op)) := by
  simp [incDecHandler, memRead_oob h]

/-- INR and DCR fail exactly on M with HL outside the buffer. -/
theorem incDecHandler_eq_error {delta : Int} {o : Operand8} : incDecHandler delta o op s = .error f ↔
    o = .m ∧ ¬ s.inBounds (addrM s) ∧ .outOfBoundsMemoryAccess (addrM s) s.pc (some op) = f := by
  cases o with
  | reg r => simp [incDecHandler_reg]
  | m =>
    by_cases h : s.inBounds (addrM s)
    · simp [incDecHandler_m_ok delta h, h]
    · simp [incDecHandler_m_oob delta h, h]

/-- INR and DCR that end, end Continue(1). -/
theorem incDecHandler_ending {delta : Int} {o : Operand8} (h : incDecHandler delta o op s = .ok (e, t)) : e = .cont 1 := by
  cases o with
  | reg r => cases h; rfl
  | m =>
    by_cases hb : s.inBounds (addrM s)
    · rw [incDecHandler_m_ok delta hb] at h; cases h; rfl
    · rw [incDecHandler_m_oob delta hb] at h; cases h

/-- A branch that ends: taken with its target fetched, or not taken. -/
theorem branch_eq_ok {taken : Bool} : branch taken op s = .ok (e, t) ↔
    (taken = true ∧ ∃ a, target op s = .ok a ∧ e = .jumped ∧ t = s.setPc a) ∨
    (taken = false ∧ e = .cont 3 ∧ t = s) := by
  unfold branch
  cases taken
  · simp [eq_comm]
  · simp only [if_true]
    split <;> rename_i h <;> simp [h, eq_comm]

theorem branch_eq_error {taken : Bool} : branch taken op s = .error f ↔ taken = true ∧ target op s = .error f := by
  unfold branch
  cases taken
  · simp
  · simp only [if_true]
    split <;> rename_i h <;> simp [h]

/-- Every meaning is the handler of its instruction's fields, run by the engine with its own opcode. -/
theorem exec_eq_runHandler (i : Instr) (s : State) : exec i s = runHandler (encodeOpcode i) (handlerOf i.form) s := by
  cases i <;> rfl

/-- What `exec` can do: a next state is what the instruction's handler left, with PC advanced as it ended. -/
theorem exec_eq_next {i : Instr} : exec i s = .next t ↔
    ∃ e u, handlerOf i.form (encodeOpcode i) s = .ok (e, u) ∧ advance s.pc e u = t := by
  rw [exec_eq_runHandler, runHandler_eq_next]

theorem exec_eq_fault {i : Instr} : exec i s = .fault f ↔ handlerOf i.form (encodeOpcode i) s = .error f := by
  rw [exec_eq_runHandler, runHandler_eq_fault]

theorem exec_ne_refused {i : Instr} {r : Refusal} : exec i s ≠ .refused r := by
  rw [exec_eq_runHandler]; exact runHandler_ne_refused

/-- A step inside the buffer runs the instruction its opcode byte names. -/
theorem step_inBounds (h : s.inBounds s.pc) : step s = exec (decodeOpcode (s.byteAt s.pc)) s := by
  simp [step, fetchOpcode, memRead_ok h]

theorem step_oob (h : ¬ s.inBounds s.pc) : step s = .fault (.outOfBoundsMemoryAccess s.pc s.pc none) := by
  simp [step, fetchOpcode, memRead_oob h]

/-- What a step can do when it answers a next state. -/
theorem step_eq_next : step s = .next t ↔
    s.inBounds s.pc ∧ exec (decodeOpcode (s.byteAt s.pc)) s = .next t := by
  by_cases h : s.inBounds s.pc
  · simp [step_inBounds h, h]
  · simp [step_oob h, h]

/-- What a handler that ends can have done to memory: nothing, or INR M's or DCR M's one store at HL. -/
theorem handlerOf_memory {g : Form} (h : handlerOf g op s = .ok (e, t)) :
    t.mem = s.mem ∨ ((g = .inr .m ∨ g = .dcr .m) ∧ s.inBounds (addrM s) ∧
      ∃ v, t.mem = s.mem.write (addrM s).toNat v) := by
  cases g with
  | alu g o => obtain ⟨v, -, -, rfl⟩ := aluHandler_eq_ok.mp h; exact .inl rfl
  | aluImm g => obtain ⟨v, -, -, rfl⟩ := immHandler_eq_ok.mp h; exact .inl rfl
  | inr o =>
    cases o with
    | reg r => simp only [handlerOf, inrHandler, incDecHandler_reg, Except.ok.injEq, Prod.mk.injEq] at h; left; simp [← h.2]
    | m =>
      by_cases hb : s.inBounds (addrM s)
      · simp only [handlerOf, inrHandler, incDecHandler_m_ok _ hb, Except.ok.injEq, Prod.mk.injEq] at h
        exact .inr ⟨.inl rfl, hb, _, by rw [← h.2]; rfl⟩
      · simp [handlerOf, inrHandler, incDecHandler_m_oob _ hb] at h
  | dcr o =>
    cases o with
    | reg r => simp only [handlerOf, dcrHandler, incDecHandler_reg, Except.ok.injEq, Prod.mk.injEq] at h; left; simp [← h.2]
    | m =>
      by_cases hb : s.inBounds (addrM s)
      · simp only [handlerOf, dcrHandler, incDecHandler_m_ok _ hb, Except.ok.injEq, Prod.mk.injEq] at h
        exact .inr ⟨.inr rfl, hb, _, by rw [← h.2]; rfl⟩
      · simp [handlerOf, dcrHandler, incDecHandler_m_oob _ hb] at h
  | inx rp => simp only [handlerOf, inxHandler, Except.ok.injEq, Prod.mk.injEq] at h; left; simp [← h.2]
  | dcx rp => simp only [handlerOf, dcxHandler, Except.ok.injEq, Prod.mk.injEq] at h; left; simp [← h.2]
  | dad rp => simp only [handlerOf, dadHandler, Except.ok.injEq, Prod.mk.injEq] at h; left; simp [← h.2]
  | jmp =>
    rcases branch_eq_ok.mp (show branch true op s = .ok (e, t) from h) with ⟨-, a, -, -, rfl⟩ | ⟨-, -, rfl⟩ <;> exact .inl rfl
  | jcc cc =>
    rcases branch_eq_ok.mp (show branch (condHolds s.flags cc) op s = .ok (e, t) from h) with ⟨-, a, -, -, rfl⟩ | ⟨-, -, rfl⟩ <;> exact .inl rfl
  | hlt => simp only [handlerOf, hltHandler, Except.ok.injEq, Prod.mk.injEq] at h; left; simp [← h.2]
  | ei => simp only [handlerOf, eiHandler, Except.ok.injEq, Prod.mk.injEq] at h; left; simp [← h.2]
  | di => simp only [handlerOf, diHandler, Except.ok.injEq, Prod.mk.injEq] at h; left; simp [← h.2]
  | unimplemented o => simp [handlerOf, unimplementedHandler, raiseUnimplemented] at h

/-- How a handler that ends can end: Halted exactly for HLT; Jumped only for JMP or a condition that holds, with both operand
bytes inside the buffer and PC the target; Continue with its own format's length. -/
theorem handlerOf_ending {g : Form} (h : handlerOf g op s = .ok (e, t)) :
    (e = .halted ↔ g = .hlt) ∧
    (e = .jumped → (g = .jmp ∨ ∃ cc, g = .jcc cc ∧ condHolds s.flags cc = true) ∧
      s.inBounds (s.pc + 1#16) ∧ s.inBounds (s.pc + 2#16) ∧
      t = s.setPc (wordOfBytes (s.byteAt (s.pc + 2#16)) (s.byteAt (s.pc + 1#16)))) ∧
    (∀ n, e = .cont n → n = g.format.length) := by
  cases g with
  | alu g o => obtain ⟨v, -, rfl, rfl⟩ := aluHandler_eq_ok.mp h; simp [Form.format, Format.length]
  | aluImm g => obtain ⟨v, -, rfl, rfl⟩ := immHandler_eq_ok.mp h; simp [Form.format, Format.length]
  | inr o => simp [incDecHandler_ending (delta := 1) h, Form.format, Format.length]
  | dcr o => simp [incDecHandler_ending (delta := -1) h, Form.format, Format.length]
  | inx rp => cases h; simp [Form.format, Format.length]
  | dcx rp => cases h; simp [Form.format, Format.length]
  | dad rp => cases h; simp [Form.format, Format.length]
  | jmp =>
    rcases branch_eq_ok.mp (show branch true op s = .ok (e, t) from h) with ⟨-, a, ha, rfl, rfl⟩ | ⟨h', -, -⟩
    · obtain ⟨h1, h2, h3⟩ := target_eq_ok.mp ha
      simp [h1, h2, h3]
    · cases h'
  | jcc cc =>
    rcases branch_eq_ok.mp (show branch (condHolds s.flags cc) op s = .ok (e, t) from h) with ⟨h0, a, ha, rfl, rfl⟩ | ⟨-, rfl, rfl⟩
    · obtain ⟨h1, h2, h3⟩ := target_eq_ok.mp ha
      simp [h0, h1, h2, h3]
    · simp [Form.format, Format.length]
  | hlt => cases h; simp
  | ei => cases h; simp [Form.format, Format.length]
  | di => cases h; simp [Form.format, Format.length]
  | unimplemented o => cases h

@[simp] theorem advance_mem (pc0 : Word) (e : Completion) (t : State) : (advance pc0 e t).mem = t.mem := by
  cases e <;> rfl

end Sys2Proof.Machine
end

