-- ==== Sys2Proof/Laws/Flags.lean ====
section
/-! SUPPORT. The evaluator's results and the truncated intermediates in plain byte arithmetic. -/

namespace Sys2Proof.Machine

/-- Bit 7 of a byte says that it is 128 or more. -/
theorem getLsbD_seven : ∀ v : Byte, v.getLsbD 7 = decide (v.toNat ≥ 128) := by decide

/-- parity8 is 1 XOR each of the eight bits (R123). -/
theorem parity8_eq_xor : ∀ v : Byte, parity8 v = !(v.getLsbD 0 ^^ v.getLsbD 1 ^^ v.getLsbD 2 ^^ v.getLsbD 3 ^^
    v.getLsbD 4 ^^ v.getLsbD 5 ^^ v.getLsbD 6 ^^ v.getLsbD 7) := by decide

/-- A sum of two bytes and a carry, truncated, is the byte sum. -/
theorem ofInt_add (a v : Byte) (c : Nat) :
    BitVec.ofInt 8 ((a.toNat : Int) + v.toNat + c) = a + v + BitVec.ofNat 8 c := by
  apply BitVec.eq_of_toNat_eq
  simp only [BitVec.toNat_ofInt, BitVec.toNat_add, BitVec.toNat_ofNat]
  omega

/-- A difference of two bytes less a carry, truncated, is the byte difference. -/
theorem ofInt_sub (a v : Byte) (c : Nat) :
    BitVec.ofInt 8 ((a.toNat : Int) - v.toNat - c) = a - v - BitVec.ofNat 8 c := by
  apply BitVec.eq_of_toNat_eq
  have := a.isLt
  have := v.isLt
  simp only [BitVec.toNat_ofInt, BitVec.toNat_sub, BitVec.toNat_ofNat]
  omega

/-- The evaluator's zero in integers. -/
theorem zero_ofInt (t : Int) : decide (BitVec.ofInt 8 t = 0) = decide (t % 256 = 0) := by
  rw [decide_eq_decide, ← BitVec.toNat_inj, BitVec.toNat_ofInt]
  simp
  omega

/-- The evaluator's sign in integers. -/
theorem sign_ofInt (t : Int) : (BitVec.ofInt 8 t).getLsbD 7 = decide (t % 256 ≥ 128) := by
  rw [getLsbD_seven, decide_eq_decide, BitVec.toNat_ofInt]
  omega

end Sys2Proof.Machine
end

