-- ==== Sys2Proof/Laws/Loader.lean ====
section
/-! SUPPORT. What a load changes, and that loading and construction keep the canonical form. -/

namespace Sys2Proof.Machine

variable {s : State} {addr : Word} {v : Byte}

theorem State.load_ok (h : s.inBounds addr) : s.load addr v = s.setByte addr v := if_pos h

theorem State.load_oob (h : ¬ s.inBounds addr) : s.load addr v = s := if_neg h

/-- A load changes memory alone, and not its size. -/
theorem State.load_eq (s : State) (addr : Word) (v : Byte) :
    ∃ m : Memory, m.size = s.mem.size ∧ s.load addr v = s.setMem m := by
  by_cases h : s.inBounds addr
  · exact ⟨s.mem.write addr.toNat v, rfl, State.load_ok h⟩
  · exact ⟨s.mem, rfl, State.load_oob h⟩

/-- Loading bytes changes memory alone, and not its size. -/
theorem State.loadBytes_eq (s : State) (addr : Word) (bytes : List Byte) :
    ∃ m : Memory, m.size = s.mem.size ∧ s.loadBytes addr bytes = s.setMem m := by
  induction bytes generalizing s addr with
  | nil => exact ⟨s.mem, rfl, rfl⟩
  | cons v rest ih =>
    obtain ⟨m, hm, he⟩ := State.load_eq s addr v
    obtain ⟨m', hm', he'⟩ := ih (s.setMem m) (addr + 1)
    exact ⟨m', hm'.trans hm, by rw [State.loadBytes, he, he']; rfl⟩

/-- A load keeps the canonical form. -/
theorem State.load_wf (h : s.mem.wf) (addr : Word) (v : Byte) : (s.load addr v).mem.wf := by
  by_cases hb : s.inBounds addr
  · rw [State.load_ok hb]
    exact Memory.wf_write h (by simpa [State.inBounds] using hb) v
  · rwa [State.load_oob hb]

/-- Loading bytes keeps the canonical form. -/
theorem State.loadBytes_wf (h : s.mem.wf) (addr : Word) (bytes : List Byte) : (s.loadBytes addr bytes).mem.wf := by
  induction bytes generalizing s addr with
  | nil => exact h
  | cons v rest ih => exact ih (State.load_wf h addr v) (addr + 1)

/-- A state constructed from an image of a legal length is in canonical form. -/
theorem State.construct_wf {image : List Byte} (h1 : 1 ≤ image.length) (h2 : image.length ≤ Config.maxMemSize)
    (pc : Word) (v : Launch) : (State.construct image pc v).mem.wf :=
  Memory.wf_ofImage h1 h2

end Sys2Proof.Machine
end

