-- ==== Sys2Proof/Laws/Run.lean ====
section
/-! SUPPORT. Runs of several steps, one equation per case of the first step; and a step as a transaction. -/

namespace Sys2Proof.Machine

variable {s t : State} {k : Nat} {e : Completion} {f : Fault}

@[simp] theorem runSteps_zero (s : State) : runSteps 0 s = .next s := rfl

theorem runSteps_next (h : step s = .next t) : runSteps (k + 1) s = runSteps k t := by
  simp [runSteps, h]

theorem runSteps_fault (h : step s = .fault f) : runSteps (k + 1) s = .fault f := by
  simp [runSteps, h]

/-- A transaction completes exactly when PC is inside the buffer and the handler of the opcode there ends. -/
theorem transact_eq_completed : transact s = (.completed e, t) ↔ s.inBounds s.pc ∧
    ∃ u, handlerOf (decodeOpcode (s.byteAt s.pc)).form (s.byteAt s.pc) s = .ok (e, u) ∧ advance s.pc e u = t := by
  unfold transact fetchOpcode
  by_cases h : s.inBounds s.pc
  · simp only [memRead_ok h, h, true_and]
    cases hh : handlerOf (decodeOpcode (s.byteAt s.pc)).form (s.byteAt s.pc) s with
    | error f => simp
    | ok r =>
      obtain ⟨e', u⟩ := r
      simp only [Prod.mk.injEq, StepOutcome.completed.injEq, Except.ok.injEq]
      constructor
      · rintro ⟨rfl, rfl⟩; exact ⟨u, ⟨rfl, rfl⟩, rfl⟩
      · rintro ⟨_, ⟨rfl, rfl⟩, rfl⟩; exact ⟨rfl, rfl⟩
  · simp [memRead_oob h, h]

/-- A transaction fails exactly when the opcode fetch or the handler does, and leaves the state as it was. -/
theorem transact_eq_failed : transact s = (.failed f, t) ↔ t = s ∧
    ((¬ s.inBounds s.pc ∧ f = .outOfBoundsMemoryAccess s.pc s.pc none) ∨
     (s.inBounds s.pc ∧ handlerOf (decodeOpcode (s.byteAt s.pc)).form (s.byteAt s.pc) s = .error f)) := by
  unfold transact fetchOpcode
  by_cases h : s.inBounds s.pc
  · simp only [memRead_ok h, h, true_and]
    cases hh : handlerOf (decodeOpcode (s.byteAt s.pc)).form (s.byteAt s.pc) s with
    | error f => simp [eq_comm, and_comm]
    | ok r => simp
  · simp [memRead_oob h, h, eq_comm, and_comm]

end Sys2Proof.Machine
end

