-- ==== Sys2Proof/Tests/Slice0.lean ====
section
/-! SUPPORT. Tests of the model. The words are those of 30_encoding.md R79, the results those of 95_test_vectors.md (its id is in
each comment) or worked out by hand from the rules. Last come the witnesses: for each obligation with hypotheses, states and operands that
meet them. -/

namespace Sys2Proof.Tests

open Sys2Proof Sys2Proof.Machine Sys2Proof.Claims

/-! Well-formedness: a good term, and an ill-formed one for each check. -/

/-- An implemented value is never `unimplemented` (R81). -/
theorem test_wf_instr : Instr.wf (.unimplemented 0xDE) = true ∧ Instr.wf (.unimplemented 0x80) = false ∧
    Instr.wf (.unimplemented 0xFB) = false := by decide

/-- A line has the operand of its format, no more and no less (R71). -/
theorem test_wf_operand : Line.wf ⟨.adi, .d8 0x42⟩ = true ∧ Line.wf ⟨.adi, .none⟩ = false ∧
    Line.wf ⟨.adi, .a16 0x42⟩ = false ∧ Line.wf ⟨.jmp, .a16 0x1234⟩ = true ∧ Line.wf ⟨.jmp, .none⟩ = false ∧
    Line.wf ⟨.jmp, .d8 0x12⟩ = false ∧ Line.wf ⟨.addB, .none⟩ = true ∧ Line.wf ⟨.addB, .d8 0⟩ = false ∧
    Line.wf ⟨.addB, .a16 0⟩ = false := by decide

/-- A line is not well formed when its instruction is not. -/
theorem test_wf_line : Line.wf ⟨.unimplemented 0x76, .none⟩ = false ∧ Line.wf ⟨.unimplemented 0x77, .none⟩ = true := by
  decide

/-! Decoding: every opcode byte of R79, bit by bit, and every instruction's encoding. -/

/-- The words of a list decode to its instructions, which encode to them. -/
abbrev Words (l : List (Byte × Instr)) : Prop := ∀ x ∈ l, decodeOpcode x.1 = x.2 ∧ encodeOpcode x.2 = x.1

/-- ADD r and M: 10 ooo sss (R72, R76). -/
theorem test_decode_add : Words [
    (0b10000000, .addB), (0b10000001, .addC), (0b10000010, .addD), (0b10000011, .addE), (0b10000100, .addH),
    (0b10000101, .addL), (0b10000110, .addM), (0b10000111, .addA)] := by decide

/-- ADC r and M: 10 ooo sss (R72, R76). -/
theorem test_decode_adc : Words [
    (0b10001000, .adcB), (0b10001001, .adcC), (0b10001010, .adcD), (0b10001011, .adcE), (0b10001100, .adcH),
    (0b10001101, .adcL), (0b10001110, .adcM), (0b10001111, .adcA)] := by decide

/-- SUB r and M: 10 ooo sss (R72, R76). -/
theorem test_decode_sub : Words [
    (0b10010000, .subB), (0b10010001, .subC), (0b10010010, .subD), (0b10010011, .subE), (0b10010100, .subH),
    (0b10010101, .subL), (0b10010110, .subM), (0b10010111, .subA)] := by decide

/-- SBB r and M: 10 ooo sss (R72, R76). -/
theorem test_decode_sbb : Words [
    (0b10011000, .sbbB), (0b10011001, .sbbC), (0b10011010, .sbbD), (0b10011011, .sbbE), (0b10011100, .sbbH),
    (0b10011101, .sbbL), (0b10011110, .sbbM), (0b10011111, .sbbA)] := by decide

/-- ADI, ACI, SUI: 11 ooo 110 (R72, R76). -/
theorem test_decode_immediate : Words [
    (0b11000110, .adi), (0b11001110, .aci), (0b11010110, .sui)] := by decide

/-- INR r and M: 00 ddd 100 (R72). -/
theorem test_decode_inr : Words [
    (0b00000100, .inrB), (0b00001100, .inrC), (0b00010100, .inrD), (0b00011100, .inrE), (0b00100100, .inrH),
    (0b00101100, .inrL), (0b00110100, .inrM), (0b00111100, .inrA)] := by decide

/-- DCR r and M: 00 ddd 101 (R72). -/
theorem test_decode_dcr : Words [
    (0b00000101, .dcrB), (0b00001101, .dcrC), (0b00010101, .dcrD), (0b00011101, .dcrE), (0b00100101, .dcrH),
    (0b00101101, .dcrL), (0b00110101, .dcrM), (0b00111101, .dcrA)] := by decide

/-- INX, DCX and DAD: 00 pp 0011, 00 pp 1011 and 00 pp 1001 (R72, R74). -/
theorem test_decode_pairs : Words [
    (0b00000011, .inxB), (0b00010011, .inxD), (0b00100011, .inxH), (0b00110011, .inxSp), (0b00001011, .dcxB),
    (0b00011011, .dcxD), (0b00101011, .dcxH), (0b00111011, .dcxSp), (0b00001001, .dadB), (0b00011001, .dadD),
    (0b00101001, .dadH), (0b00111001, .dadSp)] := by decide

/-- JMP, and Jcc: 11 ccc 010 (R72, R75). -/
theorem test_decode_branches : Words [
    (0b11000011, .jmp), (0b11000010, .jnz), (0b11001010, .jz), (0b11010010, .jnc), (0b11011010, .jc),
    (0b11100010, .jpo), (0b11101010, .jpe), (0b11110010, .jp), (0b11111010, .jm)] := by decide

/-- HLT, DI and EI (R72). -/
theorem test_decode_control : Words [
    (0b01110110, .hlt), (0b11110011, .di), (0b11111011, .ei)] := by decide

/-- Values outside R78, among them the 8080's NOP, undocumented JMP, SBI, CALL, MOV B,B, the ALU code 100 and RST 7 (R81). -/
theorem test_decode_unimplemented : Words [
    (0b00000000, .unimplemented 0x00), (0b11001011, .unimplemented 0xCB), (0b11011110, .unimplemented 0xDE),
    (0b11001101, .unimplemented 0xCD), (0b01000000, .unimplemented 0x40), (0b10100000, .unimplemented 0xA0),
    (0b11111111, .unimplemented 0xFF), (0b01110101, .unimplemented 0x75), (0b01110111, .unimplemented 0x77),
    (0b00111110, .unimplemented 0x3E)] := by decide

/-- Operand bytes: an immediate, and a target with its low byte first (R53, R77). -/
theorem test_decode_operands :
    decode [0xD6, 0x81, 0xEA] = .ok (⟨.sui, .d8 0x81⟩, [0xEA]) ∧
    decode [0xDA, 0x07, 0x00, 0x76] = .ok (⟨.jc, .a16 0x0007⟩, [0x76]) ∧
    encode ⟨.jmp, .a16 0x1234⟩ = [0xC3, 0x34, 0x12] ∧ encode ⟨.aci, .d8 0x42⟩ = [0xCE, 0x42] := ⟨rfl, rfl, rfl, rfl⟩

/-- What is not a whole line is rejected by name. -/
theorem test_decode_short : decode [] = .error .noOpcode ∧ decode [0xC6] = .error (.missingOperandBytes 2 1) ∧
    decode [0xC3, 0x34] = .error (.missingOperandBytes 3 2) := ⟨rfl, rfl, rfl⟩

/-- The assembler spelling of R84. -/
theorem test_asm : Line.asm ⟨.addB, .none⟩ = "ADD B" ∧ Line.asm ⟨.sbbM, .none⟩ = "SBB M" ∧
    Line.asm ⟨.dadSp, .none⟩ = "DAD SP" ∧ Line.asm ⟨.inxH, .none⟩ = "INX H" ∧ Line.asm ⟨.hlt, .none⟩ = "HLT" := by decide

/-- A table word, and a step that runs it first after reset. -/
theorem test_table_word : decodeTableWord 8 0x80 = some .addB ∧ decodeTableWord 24 0x1234C3 = some .jmp ∧
    decodeTableWord 8 0xDE = some (.unimplemented 0xDE) := by decide

/-! One step. -/

/-- The next state of an outcome, if it is one. -/
def nextOf : Result → Option State
  | .next t => some t
  | .fault _ => none
  | .refused _ => none

/-- The failure of an outcome, if it is one. -/
def faultOf : Result → Option Fault
  | .next _ => none
  | .fault f => some f
  | .refused _ => none

/-- A buffer of `size` bytes with some bytes from an address on, PC there, and everything else as reset leaves it. -/
def placed (size : Nat) (pc : Word) (bytes : List Byte) : State :=
  { State.reset with pc := pc, mem := { size := size, cells := imageCells pc.toNat bytes } }

/-- The vectors' start state: bytes at address 0 of a full buffer. -/
def start (bytes : List Byte) : State := placed 65536 0 bytes

/-- Flags in the vectors' order Z S P CY, AC 0. -/
def zspc (z s p cy : Nat) : Flags := ⟨z == 1, s == 1, p == 1, cy == 1, false⟩

/-- V-ADD-3. -/
theorem test_add_b_sign :
    nextOf (step { start [0x80] with a := 0x7F, b := 0x01 }) =
      some { start [0x80] with a := 0x80, b := 0x01, flags := zspc 0 1 0 0, pc := 0x0001 } := by decide

/-- V-ADD-4. -/
theorem test_add_b_carry :
    nextOf (step { start [0x80] with a := 0x80, b := 0x80 }) =
      some { start [0x80] with a := 0x00, b := 0x80, flags := zspc 1 0 1 1, pc := 0x0001 } := by decide

/-- V-ADD-6. -/
theorem test_add_a :
    nextOf (step { start [0x87] with a := 0x81 }) =
      some { start [0x87] with a := 0x02, flags := zspc 0 0 0 1, pc := 0x0001 } := by decide

/-- V-ADD-7: M is the opcode byte itself. -/
theorem test_add_m :
    nextOf (step { start [0x86] with a := 0x01 }) =
      some { start [0x86] with a := 0x87, flags := zspc 0 1 1 0, pc := 0x0001 } := by decide

/-- V-ADD-8: ADD ignores CY. -/
theorem test_add_l :
    nextOf (step { start [0x85] with a := 0x10, h := 0x12, l := 0x34, flags := zspc 0 0 0 1 }) =
      some { start [0x85] with a := 0x44, h := 0x12, l := 0x34, flags := zspc 0 0 1 0, pc := 0x0001 } := by decide

/-- V-ADC-1. -/
theorem test_adc_b_carry_in :
    nextOf (step { start [0x88] with a := 0xFF, flags := zspc 0 0 0 1 }) =
      some { start [0x88] with a := 0x00, flags := zspc 1 0 1 1, pc := 0x0001 } := by decide

/-- V-ADC-2. -/
theorem test_adc_b_max :
    nextOf (step { start [0x88] with a := 0xFF, b := 0xFF, flags := zspc 0 0 0 1 }) =
      some { start [0x88] with a := 0xFF, b := 0xFF, flags := zspc 0 1 1 1, pc := 0x0001 } := by decide

/-- V-ADC-4. -/
theorem test_adc_a :
    nextOf (step { start [0x8F] with a := 0x7F, flags := zspc 0 0 0 1 }) =
      some { start [0x8F] with a := 0xFF, flags := zspc 0 1 1 0, pc := 0x0001 } := by decide

/-- V-SUB-1. -/
theorem test_sub_b_borrow :
    nextOf (step { start [0x90] with b := 0x01 }) =
      some { start [0x90] with b := 0x01, a := 0xFF, flags := zspc 0 1 1 1, pc := 0x0001 } := by decide

/-- V-SUB-5. -/
theorem test_sub_b_no_carry_in :
    nextOf (step { start [0x90] with a := 0xFF, flags := zspc 0 0 0 1 }) =
      some { start [0x90] with a := 0xFF, flags := zspc 0 1 1 0, pc := 0x0001 } := by decide

/-- V-SUB-6. -/
theorem test_sub_a :
    nextOf (step { start [0x97] with a := 0x9C, flags := zspc 0 0 0 1 }) =
      some { start [0x97] with a := 0x00, flags := zspc 1 0 1 0, pc := 0x0001 } := by decide

/-- V-SBB-3. -/
theorem test_sbb_b_min :
    nextOf (step { start [0x98] with b := 0xFF, flags := zspc 0 0 0 1 }) =
      some { start [0x98] with b := 0xFF, a := 0x00, flags := zspc 1 0 1 1, pc := 0x0001 } := by decide

/-- V-SBB-4. -/
theorem test_sbb_b :
    nextOf (step { start [0x98] with a := 0x10, b := 0x0F, flags := zspc 0 0 0 1 }) =
      some { start [0x98] with a := 0x00, b := 0x0F, flags := zspc 1 0 1 0, pc := 0x0001 } := by decide

/-- V-SBB-6. -/
theorem test_sbb_a :
    nextOf (step { start [0x9F] with a := 0x42, flags := zspc 0 0 0 1 }) =
      some { start [0x9F] with a := 0xFF, flags := zspc 0 1 1 1, pc := 0x0001 } := by decide

/-- V-ADI-1. -/
theorem test_adi :
    nextOf (step { start [0xC6, 0x01] with a := 0xFF }) =
      some { start [0xC6, 0x01] with a := 0x00, flags := zspc 1 0 1 1, pc := 0x0002 } := by decide

/-- V-ACI-1. -/
theorem test_aci :
    nextOf (step { start [0xCE, 0x00] with a := 0xFF, flags := zspc 0 0 0 1 }) =
      some { start [0xCE, 0x00] with a := 0x00, flags := zspc 1 0 1 1, pc := 0x0002 } := by decide

/-- V-SUI-1. -/
theorem test_sui_borrow :
    nextOf (step (start [0xD6, 0x01])) =
      some { start [0xD6, 0x01] with a := 0xFF, flags := zspc 0 1 1 1, pc := 0x0002 } := by decide

/-- V-SUI-2. -/
theorem test_sui_no_carry_in :
    nextOf (step { start [0xD6, 0x00] with a := 0x55, flags := zspc 0 0 0 1 }) =
      some { start [0xD6, 0x00] with a := 0x55, flags := zspc 0 0 1 0, pc := 0x0002 } := by decide

/-- V-INR-2. -/
theorem test_inr_a_keeps_carry :
    nextOf (step { start [0x3C] with a := 0xFF, flags := zspc 0 0 0 1 }) =
      some { start [0x3C] with a := 0x00, flags := zspc 1 0 1 1, pc := 0x0001 } := by decide

/-- V-INR-3. -/
theorem test_inr_b :
    nextOf (step { start [0x04] with b := 0x7F }) =
      some { start [0x04] with b := 0x80, flags := zspc 0 1 0 0, pc := 0x0001 } := by decide

/-- V-INR-4: no carry into H. -/
theorem test_inr_l :
    nextOf (step { start [0x2C] with h := 0x12, l := 0xFF }) =
      some { start [0x2C] with h := 0x12, l := 0x00, flags := zspc 1 0 1 0, pc := 0x0001 } := by decide

/-- V-INR-6: it writes over its own opcode. -/
theorem test_inr_m_own_opcode :
    nextOf (step (start [0x34])) =
      some { start [0x34] with mem := ⟨65536, [(0, 0x35)]⟩, flags := zspc 0 0 1 0, pc := 0x0001 } := by decide

/-- V-DCR-1. -/
theorem test_dcr_b :
    nextOf (step (start [0x05])) =
      some { start [0x05] with b := 0xFF, flags := zspc 0 1 1 0, pc := 0x0001 } := by decide

/-- V-DCR-2. -/
theorem test_dcr_b_keeps_carry :
    nextOf (step { start [0x05] with b := 0x01, flags := zspc 0 0 0 1 }) =
      some { start [0x05] with b := 0x00, flags := zspc 1 0 1 1, pc := 0x0001 } := by decide

/-- V-DCR-3. -/
theorem test_dcr_c :
    nextOf (step { start [0x0D] with c := 0x80 }) =
      some { start [0x0D] with c := 0x7F, flags := zspc 0 0 0 0, pc := 0x0001 } := by decide

/-- V-DCR-4. -/
theorem test_dcr_h :
    nextOf (step (start [0x25])) =
      some { start [0x25] with h := 0xFF, flags := zspc 0 1 1 0, pc := 0x0001 } := by decide

/-- V-DCR-5: a byte memory did not list. -/
theorem test_dcr_m :
    nextOf (step { start [0x35] with h := 0x03 }) =
      some { start [0x35] with h := 0x03, mem := ⟨65536, [(0, 0x35), (0x0300, 0xFF)]⟩, flags := zspc 0 1 1 0, pc := 0x0001 } := by decide

/-- V-INX-1. -/
theorem test_inx_b :
    nextOf (step { start [0x03] with b := 0xFF, c := 0xFF }) =
      some { start [0x03] with b := 0x00, c := 0x00, flags := zspc 0 0 0 0, pc := 0x0001 } := by decide

/-- V-INX-2. -/
theorem test_inx_d :
    nextOf (step { start [0x13] with e := 0xFF }) =
      some { start [0x13] with e := 0x00, d := 0x01, flags := zspc 0 0 0 0, pc := 0x0001 } := by decide

/-- V-INX-3. -/
theorem test_inx_h :
    nextOf (step { start [0x23] with h := 0x12, l := 0x34, flags := zspc 1 1 1 1 }) =
      some { start [0x23] with h := 0x12, l := 0x35, flags := zspc 1 1 1 1, pc := 0x0001 } := by decide

/-- V-INX-4. -/
theorem test_inx_sp :
    nextOf (step { start [0x33] with sp := 0xFFFF }) =
      some { start [0x33] with sp := 0x0000, flags := zspc 0 0 0 0, pc := 0x0001 } := by decide

/-- V-DCX-1. -/
theorem test_dcx_b :
    nextOf (step (start [0x0B])) =
      some { start [0x0B] with b := 0xFF, c := 0xFF, flags := zspc 0 0 0 0, pc := 0x0001 } := by decide

/-- V-DCX-2. -/
theorem test_dcx_d :
    nextOf (step { start [0x1B] with d := 0x01 }) =
      some { start [0x1B] with d := 0x00, e := 0xFF, flags := zspc 0 0 0 0, pc := 0x0001 } := by decide

/-- V-DCX-3: no flag, though HL is 0. -/
theorem test_dcx_h :
    nextOf (step { start [0x2B] with l := 0x01 }) =
      some { start [0x2B] with l := 0x00, flags := zspc 0 0 0 0, pc := 0x0001 } := by decide

/-- V-DCX-4. -/
theorem test_dcx_sp :
    nextOf (step (start [0x3B])) =
      some { start [0x3B] with sp := 0xFFFF, flags := zspc 0 0 0 0, pc := 0x0001 } := by decide

/-- V-DAD-1. -/
theorem test_dad_b :
    nextOf (step { start [0x09] with l := 0x01, b := 0xFF, c := 0xFF, flags := zspc 0 1 0 0 }) =
      some { start [0x09] with l := 0x00, b := 0xFF, c := 0xFF, flags := zspc 0 1 0 1, pc := 0x0001 } := by decide

/-- V-DAD-2. -/
theorem test_dad_d :
    nextOf (step { start [0x19] with h := 0x12, l := 0x34, d := 0x43, e := 0x21, flags := zspc 0 0 0 1 }) =
      some { start [0x19] with h := 0x55, l := 0x55, d := 0x43, e := 0x21, flags := zspc 0 0 0 0, pc := 0x0001 } := by decide

/-- V-DAD-3. -/
theorem test_dad_h :
    nextOf (step { start [0x29] with h := 0x80 }) =
      some { start [0x29] with h := 0x00, flags := zspc 0 0 0 1, pc := 0x0001 } := by decide

/-- V-DAD-5. -/
theorem test_dad_sp :
    nextOf (step { start [0x39] with h := 0xFF, l := 0xFF, sp := 0x0001, flags := zspc 1 0 0 0 }) =
      some { start [0x39] with h := 0x00, l := 0x00, sp := 0x0001, flags := zspc 1 0 0 1, pc := 0x0001 } := by decide

/-- V-JMP-1. -/
theorem test_jmp :
    nextOf (step (start [0xC3, 0x34, 0x12])) =
      some { start [0xC3, 0x34, 0x12] with flags := zspc 0 0 0 0, pc := 0x1234 } := by decide

/-- V-JNZ-T. -/
theorem test_jnz_taken :
    nextOf (step { start [0xC2, 0xEF, 0xBE] with flags := zspc 0 0 0 0 }) =
      some { start [0xC2, 0xEF, 0xBE] with flags := zspc 0 0 0 0, pc := 0xBEEF } := by decide

/-- V-JNZ-N. -/
theorem test_jnz_not_taken :
    nextOf (step { start [0xC2, 0xEF, 0xBE] with flags := zspc 1 0 0 0 }) =
      some { start [0xC2, 0xEF, 0xBE] with flags := zspc 1 0 0 0, pc := 0x0003 } := by decide

/-- V-JZ-T. -/
theorem test_jz_taken :
    nextOf (step { start [0xCA, 0xEF, 0xBE] with flags := zspc 1 0 0 0 }) =
      some { start [0xCA, 0xEF, 0xBE] with flags := zspc 1 0 0 0, pc := 0xBEEF } := by decide

/-- V-JZ-N. -/
theorem test_jz_not_taken :
    nextOf (step { start [0xCA, 0xEF, 0xBE] with flags := zspc 0 0 0 0 }) =
      some { start [0xCA, 0xEF, 0xBE] with flags := zspc 0 0 0 0, pc := 0x0003 } := by decide

/-- V-JNC-T. -/
theorem test_jnc_taken :
    nextOf (step { start [0xD2, 0xEF, 0xBE] with flags := zspc 0 0 0 0 }) =
      some { start [0xD2, 0xEF, 0xBE] with flags := zspc 0 0 0 0, pc := 0xBEEF } := by decide

/-- V-JNC-N. -/
theorem test_jnc_not_taken :
    nextOf (step { start [0xD2, 0xEF, 0xBE] with flags := zspc 0 0 0 1 }) =
      some { start [0xD2, 0xEF, 0xBE] with flags := zspc 0 0 0 1, pc := 0x0003 } := by decide

/-- V-JC-T. -/
theorem test_jc_taken :
    nextOf (step { start [0xDA, 0xEF, 0xBE] with flags := zspc 0 0 0 1 }) =
      some { start [0xDA, 0xEF, 0xBE] with flags := zspc 0 0 0 1, pc := 0xBEEF } := by decide

/-- V-JC-N. -/
theorem test_jc_not_taken :
    nextOf (step { start [0xDA, 0xEF, 0xBE] with flags := zspc 0 0 0 0 }) =
      some { start [0xDA, 0xEF, 0xBE] with flags := zspc 0 0 0 0, pc := 0x0003 } := by decide

/-- V-JPO-T. -/
theorem test_jpo_taken :
    nextOf (step { start [0xE2, 0xEF, 0xBE] with flags := zspc 0 0 0 0 }) =
      some { start [0xE2, 0xEF, 0xBE] with flags := zspc 0 0 0 0, pc := 0xBEEF } := by decide

/-- V-JPO-N. -/
theorem test_jpo_not_taken :
    nextOf (step { start [0xE2, 0xEF, 0xBE] with flags := zspc 0 0 1 0 }) =
      some { start [0xE2, 0xEF, 0xBE] with flags := zspc 0 0 1 0, pc := 0x0003 } := by decide

/-- V-JPE-T. -/
theorem test_jpe_taken :
    nextOf (step { start [0xEA, 0xEF, 0xBE] with flags := zspc 0 0 1 0 }) =
      some { start [0xEA, 0xEF, 0xBE] with flags := zspc 0 0 1 0, pc := 0xBEEF } := by decide

/-- V-JPE-N. -/
theorem test_jpe_not_taken :
    nextOf (step { start [0xEA, 0xEF, 0xBE] with flags := zspc 0 0 0 0 }) =
      some { start [0xEA, 0xEF, 0xBE] with flags := zspc 0 0 0 0, pc := 0x0003 } := by decide

/-- V-JP-T. -/
theorem test_jp_taken :
    nextOf (step { start [0xF2, 0xEF, 0xBE] with flags := zspc 0 0 0 0 }) =
      some { start [0xF2, 0xEF, 0xBE] with flags := zspc 0 0 0 0, pc := 0xBEEF } := by decide

/-- V-JP-N. -/
theorem test_jp_not_taken :
    nextOf (step { start [0xF2, 0xEF, 0xBE] with flags := zspc 0 1 0 0 }) =
      some { start [0xF2, 0xEF, 0xBE] with flags := zspc 0 1 0 0, pc := 0x0003 } := by decide

/-- V-JM-T. -/
theorem test_jm_taken :
    nextOf (step { start [0xFA, 0xEF, 0xBE] with flags := zspc 0 1 0 0 }) =
      some { start [0xFA, 0xEF, 0xBE] with flags := zspc 0 1 0 0, pc := 0xBEEF } := by decide

/-- V-JM-N. -/
theorem test_jm_not_taken :
    nextOf (step { start [0xFA, 0xEF, 0xBE] with flags := zspc 0 0 0 0 }) =
      some { start [0xFA, 0xEF, 0xBE] with flags := zspc 0 0 0 0, pc := 0x0003 } := by decide

/-- V-HLT-1. -/
theorem test_hlt :
    nextOf (step { start [0x76] with a := 0x12, flags := zspc 0 0 0 1 }) =
      some { start [0x76] with a := 0x12, flags := zspc 0 0 0 1, pc := 0x0000 } := by decide

/-- V-EI-1. -/
theorem test_ei :
    nextOf (step (start [0xFB])) =
      some { start [0xFB] with inte := true, flags := zspc 0 0 0 0, pc := 0x0001 } := by decide

/-- V-DI-1. -/
theorem test_di :
    nextOf (step { start [0xF3] with inte := true }) =
      some { start [0xF3] with inte := false, flags := zspc 0 0 0 0, pc := 0x0001 } := by decide

/-- A state whose seven registers all differ: A = 0x40, B to L = 1, 2, 4, 8, 0x10, 0x20, and CY = 1. -/
def distinct : State :=
  { start [] with a := 0x40, b := 1, c := 2, d := 4, e := 8, h := 0x10, l := 0x20, flags := zspc 0 0 0 1 }

/-- Each register form reads its own register: 0x40 with each operand, by hand. -/
theorem test_alu_register_operands :
    (∀ x ∈ ([(.addB, 0x41), (.addC, 0x42), (.addD, 0x44), (.addE, 0x48), (.addH, 0x50), (.addL, 0x60), (.addA, 0x80),
      (.adcB, 0x42), (.adcC, 0x43), (.adcD, 0x45), (.adcE, 0x49), (.adcH, 0x51), (.adcL, 0x61), (.adcA, 0x81),
      (.subB, 0x3F), (.subC, 0x3E), (.subD, 0x3C), (.subE, 0x38), (.subH, 0x30), (.subL, 0x20), (.subA, 0x00),
      (.sbbB, 0x3E), (.sbbC, 0x3D), (.sbbD, 0x3B), (.sbbE, 0x37), (.sbbH, 0x2F), (.sbbL, 0x1F), (.sbbA, 0xFF)] :
      List (Instr × Byte)), (nextOf (exec x.1 distinct)).map (fun t => t.a) = some x.2) := by decide

/-- Each INR and DCR writes its own register. -/
theorem test_incdec_register_operands :
    (∀ x ∈ ([(.b, .inrB, 2), (.c, .inrC, 3), (.d, .inrD, 5), (.e, .inrE, 9), (.h, .inrH, 0x11), (.l, .inrL, 0x21),
      (.a, .inrA, 0x41), (.b, .dcrB, 0), (.c, .dcrC, 1), (.d, .dcrD, 3), (.e, .dcrE, 7), (.h, .dcrH, 0x0F),
      (.l, .dcrL, 0x1F), (.a, .dcrA, 0x3F)] : List (Reg8 × Instr × Byte)),
      (nextOf (exec x.2.1 distinct)).map (fun t => t.reg x.1) = some x.2.2) := by decide

/-- A state with A, a byte at HL = 0x0100, and CY given. -/
def atM (a m : Byte) (cy : Nat) : State :=
  { start [] with a := a, h := 0x01, flags := zspc 0 0 0 cy, mem := ⟨65536, [(0x0100, m)]⟩ }

/-- V-ADC-5, V-SUB-7 and V-SBB-7, with bytes of our own at HL: the sum 0x0F + 0xF0 + 1, 0x10 - 0x11, 0x05 - 0x05. -/
theorem test_alu_m :
    (nextOf (exec .adcM (atM 0x0F 0xF0 1))).map (fun t => (t.a, t.flags)) = some (0x00, zspc 1 0 1 1) ∧
    (nextOf (exec .subM (atM 0x10 0x11 0))).map (fun t => (t.a, t.flags)) = some (0xFF, zspc 0 1 1 1) ∧
    (nextOf (exec .sbbM (atM 0x05 0x05 0))).map (fun t => (t.a, t.flags)) = some (0x00, zspc 1 0 1 0) := by decide

/-- V-INR-5: 0x0F at HL becomes 0x10; and 0xFF becomes 0x00, which memory does not list. -/
theorem test_inr_m : (nextOf (exec .inrM (atM 0 0x0F 0))).map (fun t => (t.mem.cells, t.flags)) =
      some ([(0x0100, 0x10)], zspc 0 0 0 0) ∧
    (nextOf (exec .inrM (atM 0 0xFF 1))).map (fun t => (t.mem.cells, t.flags)) = some ([], zspc 1 0 1 1) := by decide

/-- V-UNI-1 to V-UNI-5. -/
theorem test_unimplemented : ∀ op ∈ ([0x00, 0xDE, 0xCB, 0xCD, 0xFF] : List Byte),
    faultOf (step (start [op])) = some (.unimplementedOpcode op 0) := by decide

/-- V-OOB-1 to V-OOB-8 and E6's JNZ, MEM_SIZE 0x1000. -/
theorem test_out_of_bounds :
    faultOf (step (placed 0x1000 0x1000 [])) = some (.outOfBoundsMemoryAccess 0x1000 0x1000 none) ∧
    faultOf (step { placed 0x1000 0 [0x86] with h := 0x10 }) = some (.outOfBoundsMemoryAccess 0x1000 0 (some 0x86)) ∧
    faultOf (step { placed 0x1000 0 [0x96] with h := 0xFF, l := 0xFF }) =
      some (.outOfBoundsMemoryAccess 0xFFFF 0 (some 0x96)) ∧
    faultOf (step { placed 0x1000 0 [0x35] with h := 0x10 }) = some (.outOfBoundsMemoryAccess 0x1000 0 (some 0x35)) ∧
    faultOf (step (placed 0x1000 0x0FFF [0xC6])) = some (.outOfBoundsMemoryAccess 0x1000 0x0FFF (some 0xC6)) ∧
    faultOf (step (placed 0x1000 0x0FFE [0xC3])) = some (.outOfBoundsMemoryAccess 0x1000 0x0FFE (some 0xC3)) ∧
    faultOf (step (placed 0x1000 0x0FFF [0xC3])) = some (.outOfBoundsMemoryAccess 0x1000 0x0FFF (some 0xC3)) ∧
    faultOf (step { placed 0x1000 0x0FFF [0xCA] with flags := zspc 1 0 0 0 }) =
      some (.outOfBoundsMemoryAccess 0x1000 0x0FFF (some 0xCA)) ∧
    (nextOf (step { placed 0x1000 0x0FFF [0xC2] with flags := zspc 1 0 0 0 })).map (fun t => t.pc) = some 0x1002 := by
  decide

/-- PC and operand addresses wrap mod 65536: ADI at 0xFFFF takes its byte from address 0, and leaves PC at 1. -/
theorem test_wrap : (nextOf (step { start [0x05] with pc := 0xFFFF, a := 1, mem := ⟨65536, [(0, 0x05), (0xFFFF, 0xC6)]⟩ })).map
    (fun t => (t.a, t.pc)) = some (0x06, 0x0001) := by decide

/-- Right after reset with nothing placed, the first step fails on opcode 0x00 (log 7). -/
theorem test_reset_step : faultOf (step State.reset) = some (.unimplementedOpcode 0x00 0x0000) := by decide

/-- A table word placed after reset is what the next step runs. -/
theorem test_with_fetch_word :
    (nextOf (step (State.reset.withFetchWord 8 0x3C))).map (fun t => (t.a, t.pc)) = some (1, 1) ∧
    (nextOf (step (State.reset.withFetchWord 24 0x1234C3))).map (fun t => t.pc) = some 0x1234 ∧
    (nextOf (step (State.reset.withFetchWord 16 0x7FC6))).map (fun t => (t.a, t.pc)) = some (0x7F, 2) := by decide

/-- The evaluator: V-FLG-1 to V-FLG-8, results in the order Z S P CY. -/
theorem test_evaluate : ∀ x ∈ ([(0, .add8, ⟨true, false, true, false⟩), (255, .add8, ⟨false, true, true, false⟩),
    (256, .add8, ⟨true, false, true, true⟩), (511, .add8, ⟨false, true, true, true⟩), (0x7F, .add8, ⟨false, false, false, false⟩),
    (-1, .sub8, ⟨false, true, true, true⟩), (-256, .sub8, ⟨true, false, true, true⟩), (-128, .sub8, ⟨false, true, false, true⟩)] :
    List (Int × CarryClass × FlagResults)), evaluate x.1 x.2.1 = x.2.2 := by decide

/-- The scopes: V-FLG-9 to V-FLG-12, from flags that show what is unchanged. -/
theorem test_scopes : incDec8 0x100 (zspc 0 1 0 1) = zspc 1 0 1 1 ∧ incDec8 (-1) (zspc 1 0 0 0) = zspc 0 1 1 0 ∧
    carry16 65536 (zspc 0 1 0 0) = zspc 0 1 0 1 ∧ carry16 65535 (zspc 1 0 1 1) = zspc 1 0 1 0 := by decide

/-- E8: parity of sample bytes. -/
theorem test_parity : (([0x00, 0x03, 0x81, 0x0F, 0x3F, 0xFF, 0x55, 0xAA] : List Byte).all parity8) = true ∧
    (([0x01, 0x02, 0x80, 0x07, 0x1F, 0x76, 0x7F, 0xFE] : List Byte).any parity8) = false := by decide

/-- The outcome port: Continue(2) of ADI, Halted, and the record of a failed fetch (R113). -/
theorem test_port :
    (transact (start [0xC6, 0x01])).1.port = ⟨.continue, some 2, none, none, none, none⟩ ∧
    (transact (start [0x76])).1.port = ⟨.halted, none, none, none, none, none⟩ ∧
    (transact (start [0xC3, 0x34, 0x12])).1.port = ⟨.jumped, none, none, none, none, none⟩ ∧
    (transact (placed 0x1000 0x1000 [])).1.port =
      ⟨.failed, none, some .outOfBounds, none, some 0x1000, some 0x1000⟩ := by decide

/-- The codes of the two failures (R230), and introspection at the end of a small buffer (R112). -/
theorem test_codes_and_introspection : Fault.code (.unimplementedOpcode 0 0) = 0 ∧
    Fault.code (.outOfBoundsMemoryAccess 0 0 none) = 1 ∧ introspectMem (placed 1 0 [0x76]) 0 = some 0x76 ∧
    introspectMem (placed 1 0 [0x76]) 1 = none ∧ (introspect { start [] with sp := 0x1234 }).sp = 0x1234 := by decide

/-! Witnesses. Each shows states and operands that meet every hypothesis of the obligation it names, clause by clause. -/

/-- A 0x1000-byte buffer with HL at the last byte, and the same with HL one past it. -/
def hlLast (op : Byte) : State := { placed 0x1000 0 [op] with h := 0x0F, l := 0xFF }
def hlPast (op : Byte) : State := { placed 0x1000 0 [op] with h := 0x10, l := 0x00 }

/-- AddMemoryResult, AdcMemoryResult, SubMemoryResult, SbbMemoryResult, InrMemoryResult, DcrMemoryResult: both clauses. -/
theorem test_witness_memory_operand : ∀ op ∈ ([0x86, 0x8E, 0x96, 0x9E, 0x34, 0x35] : List Byte),
    (hlLast op).mem.wf ∧ (hlLast op).inBounds (addrM (hlLast op)) = true ∧
    ¬ (hlPast op).inBounds (addrM (hlPast op)) = true := by decide

/-- AdiResult, AciResult, SuiResult: the operand at the last byte, one past it, and at address 0 after a wrap. -/
theorem test_witness_immediate : ∀ op ∈ ([0xC6, 0xCE, 0xD6] : List Byte),
    (placed 0x1000 0x0FFE [op]).inBounds ((placed 0x1000 0x0FFE [op]).pc + 1#16) = true ∧
    ¬ (placed 0x1000 0x0FFF [op]).inBounds ((placed 0x1000 0x0FFF [op]).pc + 1#16) = true ∧
    (placed 65536 0xFFFF [op]).inBounds ((placed 65536 0xFFFF [op]).pc + 1#16) = true := by decide

/-- JmpResult: its three clauses, the target's bytes at the end of the buffer. -/
theorem test_witness_jmp :
    ((placed 0x1000 0x0FFD [0xC3]).inBounds 0x0FFE = true ∧ (placed 0x1000 0x0FFD [0xC3]).inBounds 0x0FFF = true) ∧
    ¬ (placed 0x1000 0x0FFF [0xC3]).inBounds 0x1000 = true ∧
    ((placed 0x1000 0x0FFE [0xC3]).inBounds 0x0FFF = true ∧ ¬ (placed 0x1000 0x0FFE [0xC3]).inBounds 0x1000 = true) := by
  decide

/-- JccResult: its four clauses for each condition, with flags on which it holds and flags on which it does not. -/
theorem test_witness_jcc : ∀ x ∈ ([(.nz, zspc 0 0 0 0, zspc 1 0 0 0), (.z, zspc 1 0 0 0, zspc 0 0 0 0),
      (.nc, zspc 0 0 0 0, zspc 0 0 0 1), (.c, zspc 0 0 0 1, zspc 0 0 0 0), (.po, zspc 0 0 0 0, zspc 0 0 1 0),
      (.pe, zspc 0 0 1 0, zspc 0 0 0 0), (.p, zspc 0 0 0 0, zspc 0 1 0 0), (.m, zspc 0 1 0 0, zspc 0 0 0 0)] :
      List (Cond × Flags × Flags)),
    (condHolds x.2.1 x.1 = true ∧ condHolds x.2.2 x.1 = false) ∧
    (State.inBounds { placed 0x1000 0x0FFD [] with flags := x.2.1 } 0x0FFE = true ∧
      State.inBounds { placed 0x1000 0x0FFD [] with flags := x.2.1 } 0x0FFF = true) ∧
    ¬ State.inBounds { placed 0x1000 0x0FFF [] with flags := x.2.1 } 0x1000 = true ∧
    (State.inBounds { placed 0x1000 0x0FFE [] with flags := x.2.1 } 0x0FFF = true ∧
      ¬ State.inBounds { placed 0x1000 0x0FFE [] with flags := x.2.1 } 0x1000 = true) := by decide

/-- HltResult: a transaction that ends Halted. -/
theorem test_witness_hlt : (transact (start [0x76])).1 = .completed .halted := by decide

/-- UnimplementedOpcodeFails: the last byte of the buffer, an opcode outside R78. -/
theorem test_witness_unimplemented : (placed 0x1000 0x0FFF [0xDE]).inBounds 0x0FFF = true ∧
    decodeOpcode ((placed 0x1000 0x0FFF [0xDE]).byteAt 0x0FFF) = .unimplemented 0xDE := by decide

/-- A state in which every instruction with an effect completes: HL at 0x1020, and operand bytes after PC. -/
def roomy : State := { distinct with mem := ⟨65536, [(1, 0x34), (2, 0x12)]⟩ }

/-- The frames, AuxiliaryCarryIsInert and StackPointerIsAPlainCounter: every instruction but `unimplemented` gives a next state
in some state. -/
theorem test_witness_frames : ∀ op ∈ implementedOpcodes, (nextOf (exec (decodeOpcode op) roomy)).isSome = true := by decide

/-- LatchAndAcDoNotInterfere: two different states that differ in INTE and AC alone. -/
theorem test_witness_inert : forgetInert (start [0xFB]) = forgetInert { withAc true (start [0xFB]) with inte := true } ∧
    start [0xFB] ≠ { withAc true (start [0xFB]) with inte := true } := by decide

/-- StepRunsDecodedInstruction: PC at the last byte, and one past it. -/
theorem test_witness_step : (placed 0x1000 0x0FFF [0x80]).inBounds 0x0FFF = true ∧
    ¬ (placed 0x1000 0x1000 []).inBounds 0x1000 = true := by decide

/-- A state with a JMP that lies across the wrap of addresses. -/
def acrossWrap : State := { start [0x34, 0x12] with pc := 0xFFFF, mem := ⟨65536, [(0, 0x34), (1, 0x12), (0xFFFF, 0xC3)]⟩ }

/-- StepRunsEncodedLine: a JMP across the wrap, and an ADI at the end of a small buffer. -/
theorem test_witness_line : Line.wf ⟨.jmp, .a16 0x1234⟩ = true ∧ Line.wf ⟨.adi, .d8 0x42⟩ = true ∧
    (∀ k : Fin 3, acrossWrap.inBounds (acrossWrap.pc + BitVec.ofNat 16 k) = true ∧
      acrossWrap.byteAt (acrossWrap.pc + BitVec.ofNat 16 k) = (encode ⟨.jmp, .a16 0x1234⟩)[k]) ∧
    (∀ k : Fin 2, (placed 0x1000 0x0FFE [0xC6, 0x42]).inBounds (0x0FFE#16 + BitVec.ofNat 16 k) = true ∧
      (placed 0x1000 0x0FFE [0xC6, 0x42]).byteAt (0x0FFE#16 + BitVec.ofNat 16 k) = (encode ⟨.adi, .d8 0x42⟩)[k]) := by
  decide

/-- DecodeOfEncodeIsIdentity and EncodeOfDecodeIsIdentity: a line of each format, a list that decodes, and two that do not. -/
theorem test_witness_codec : (Line.wf ⟨.sbbM, .none⟩ = true ∧ Line.wf ⟨.sui, .d8 0xFF⟩ = true ∧ Line.wf ⟨.jm, .a16 0xFFFF⟩ = true) ∧
    decode [0xFA, 0xFF, 0xFE, 0x00] = .ok (⟨.jm, .a16 0xFEFF⟩, [0x00]) ∧ decode [] = .error .noOpcode ∧
    decode [0xFA, 0xFF] = .error (.missingOperandBytes 3 2) := ⟨by decide, rfl, rfl, rfl⟩

/-- HandlersReportTheirLength and ContinueAdvancesPcByLength: endings Continue(1), Continue(2) and Continue(3), one from PC 0xFFFF,
and an instruction outside the two lists. -/
theorem test_witness_continue :
    (transact (placed 65536 0xFFFF [0x80])).1 = .completed (.cont 1) ∧
    (transact (placed 65536 0xFFFF [0xC6])).1 = .completed (.cont 2) ∧
    (transact (placed 65536 0xFFFF [0xCA])).1 = .completed (.cont 3) ∧ (transact (placed 65536 0xFFFF [0xCA])).2.pc = 2 ∧
    handlerOf (Instr.form .jz) 0xCA (start []) = .ok (.cont 3, start []) ∧
    Instr.hlt ∉ ([.adi, .aci, .sui, .jmp, .jnz, .jz, .jnc, .jc, .jpo, .jpe, .jp, .jm] : List Instr) ∧
    ∀ op, Instr.hlt ≠ .unimplemented op := ⟨by decide, by decide, by decide, by decide, rfl, by decide, fun _ => by simp⟩

/-- DecodeIsTotalAndUnambiguous: a value that decodes to unimplemented. -/
theorem test_witness_unambiguous : decodeOpcode 0x00 = .unimplemented 0x00 ∧ decodeOpcode 0x80 = decodeOpcode 0x80 := by
  decide

/-- OnlyTakenBranchesJump: a JMP and a taken conditional jump. -/
theorem test_witness_jumped : (transact (start [0xC3, 0x34, 0x12])).1 = .completed .jumped ∧
    (transact (start [0xD2, 0x34, 0x12])).1 = .completed .jumped := by decide

/-- StepKeepsMemoryCanonical and OnlyIncrementsOfMemoryStore: a step from a canonical state that stores at the last byte. -/
theorem test_witness_store : (hlLast 0x35).Inv ∧
    (nextOf (step (hlLast 0x35))).map (fun t => t.mem.read 0x0FFF) = some 0xFF ∧ (hlLast 0x35).mem.read 0x0FFF ≠ 0xFF := by
  decide

/-- MemoryReadsLastWrite: the last address of a one-byte buffer and of a full one. -/
theorem test_witness_write : (Memory.mk 1 []).wf ∧ 0 < (Memory.mk 1 []).size ∧ (Memory.mk 65536 [(3, 7)]).wf ∧
    65535 < (Memory.mk 65536 [(3, 7)]).size := by decide

/-- CanonicalMemoriesAreEqual: a memory read as another that was written to and back. -/
theorem test_witness_equal : (Memory.mk 16 [(3, 7)]).wf ∧ (((Memory.mk 16 [(3, 7)]).write 5 9).write 5 0).wf ∧
    (∀ a, (Memory.mk 16 [(3, 7)]).read a = (((Memory.mk 16 [(3, 7)]).write 5 9).write 5 0).read a) :=
  ⟨by decide, by decide, fun _ => rfl⟩

/-- ConstructionLoadsTheImage: images of the shortest and the longest legal length. -/
theorem test_witness_image : (1 ≤ [(0x76 : Byte)].length ∧ [(0x76 : Byte)].length ≤ 65536) ∧
    1 ≤ (List.replicate 65536 (0xFF : Byte)).length ∧ (List.replicate 65536 (0xFF : Byte)).length ≤ 65536 := by
  simp only [List.length_replicate]; decide

/-- LoadedInstructionRuns: reset, and a PC whose operand bytes wrap. -/
theorem test_witness_load : (State.reset.Inv ∧ State.reset.inBounds 0 = true ∧ State.reset.inBounds 1 = true ∧ State.reset.inBounds 2 = true) ∧
    ((placed 65536 0xFFFF []).Inv ∧ (placed 65536 0xFFFF []).inBounds 0xFFFF = true ∧
      (placed 65536 0xFFFF []).inBounds (0xFFFF + 1#16) = true ∧ (placed 65536 0xFFFF []).inBounds (0xFFFF + 2#16) = true) := by
  decide

/-- StepFailsExactlyWhen: `test_out_of_bounds` and `test_unimplemented` meet each of its cases; a step that does not fail meets none. -/
theorem test_witness_failure : faultOf (step (hlPast 0x9E)) = some (.outOfBoundsMemoryAccess 0x1000 0 (some 0x9E)) ∧
    faultOf (step (hlLast 0x9E)) = none := by decide

/-- ImplementedInstructionsRun: a full buffer, and a three-byte one. -/
theorem test_witness_run : ∀ s ∈ [roomy, placed 3 0 [0x80]], s.inBounds s.pc = true ∧ s.inBounds (s.pc + 1#16) = true ∧
    s.inBounds (s.pc + 2#16) = true := by decide

/-- ImplementedInstructionsRun, the rest: HL inside the buffer and an opcode of R78. -/
theorem test_witness_run_opcode : (placed 3 0 [0x80]).inBounds (addrM (placed 3 0 [0x80])) = true ∧
    (placed 3 0 [0x80]).byteAt 0 ∈ implementedOpcodes := by decide

/-- RunEndsAtHaltOrFailure: a run that halts, one that fails and one cut short (programs P7 and P5 of the vectors, and P7 with fuel 1). -/
theorem test_witness_ends : (run 5 { start [0x34, 0x75] with l := 1 }).1 = some .halted ∧
    (run 5 (start [0x3C, 0x3E, 0x05])).1 = some (.failed (.unimplementedOpcode 0x3E 0x0001)) ∧
    (run 1 { start [0x34, 0x75] with l := 1 }).1 = none := by decide

/-- StoresReachTheNextFetch: a step of INR M from a canonical state, and the state after it with PC at the byte stored (P7). -/
theorem test_witness_self_modify : State.Inv { start [0x34, 0x75] with l := 1 } ∧
    (nextOf (step { start [0x34, 0x75] with l := 1 })).map (fun t => (t.pc, t.mem)) = some (0x0001, ⟨65536, [(0, 0x34), (1, 0x76)]⟩) ∧
    addrM { start [0x34, 0x75] with l := 1 } = 0x0001 := by decide

/-- JumpTargetIsNotChecked: program P6, whose target is one past the buffer. -/
theorem test_witness_jump_beyond : targetAt (placed 0x0100 0 [0xC3, 0x00, 0x01]) = 0x0100 ∧
    (placed 0x0100 0 [0xC3, 0x00, 0x01]).inBounds 2 = true ∧ ¬ (placed 0x0100 0 [0xC3, 0x00, 0x01]).inBounds 0x0100 = true := by decide

end Sys2Proof.Tests
end

section
/-! Family 10_state.md. An update of the state that no handler reads back commutes with `exec`; AC and SP are two such updates
(R26, R28). That an instruction keeps the field follows: replacing the field by its own value changes nothing. -/

namespace Sys2Proof.Proofs

open Sys2Proof Sys2Proof.Machine Sys2Proof.Claims

/-- The update `g`, which acts on the flags as `φ`, touches nothing that a handler reads and passes through everything that a handler
writes, as long as the handler does not name SP as its pair. -/
structure Inert (φ : Flags → Flags) (g : State → State) : Prop where
  reg (s : State) (r : Reg8) : (g s).reg r = s.reg r
  rp (s : State) {rp : RegPair} (h : rp ≠ .sp) : (g s).rp rp = s.rp rp
  pc (s : State) : (g s).pc = s.pc
  mem (s : State) : (g s).mem = s.mem
  flags (s : State) : (g s).flags = φ s.flags
  cy (f : Flags) : (φ f).cy = f.cy
  condHolds (f : Flags) (cc : Cond) : condHolds (φ f) cc = condHolds f cc
  arith8 (t : Int) (cls : CarryClass) (f : Flags) : arith8 t cls (φ f) = φ (arith8 t cls f)
  incDec8 (t : Int) (f : Flags) : incDec8 t (φ f) = φ (incDec8 t f)
  carry16 (t : Int) (f : Flags) : carry16 t (φ f) = φ (carry16 t f)
  setReg (s : State) (r : Reg8) (v : Byte) : (g s).setReg r v = g (s.setReg r v)
  setRp (s : State) {rp : RegPair} (h : rp ≠ .sp) (v : Word) : (g s).setRp rp v = g (s.setRp rp v)
  setPc (s : State) (v : Word) : (g s).setPc v = g (s.setPc v)
  setFlags (s : State) (v : Flags) : (g s).setFlags (φ v) = g (s.setFlags v)
  setInte (s : State) (v : Bool) : (g s).setInte v = g (s.setInte v)
  setMem (s : State) (v : Memory) : (g s).setMem v = g (s.setMem v)

theorem withAc_inert (x : Bool) : Inert (fun f => { f with ac := x }) (withAc x) where
  reg _ r := by cases r <;> rfl
  rp _ {rp} _ := by cases rp <;> rfl
  pc _ := rfl
  mem _ := rfl
  flags _ := rfl
  cy _ := rfl
  condHolds _ cc := by cases cc <;> rfl
  arith8 _ _ _ := rfl
  incDec8 _ _ := rfl
  carry16 _ _ := rfl
  setReg _ r _ := by cases r <;> rfl
  setRp _ {rp} _ _ := by cases rp <;> rfl
  setPc _ _ := rfl
  setFlags _ _ := rfl
  setInte _ _ := rfl
  setMem _ _ := rfl

theorem withSp_inert (x : Word) : Inert id (withSp x) where
  reg _ r := by cases r <;> rfl
  rp _ {rp} h := by
    cases rp with
    | sp => exact absurd rfl h
    | _ => rfl
  pc _ := rfl
  mem _ := rfl
  flags _ := rfl
  cy _ := rfl
  condHolds _ _ := rfl
  arith8 _ _ _ := rfl
  incDec8 _ _ := rfl
  carry16 _ _ := rfl
  setReg _ r _ := by cases r <;> rfl
  setRp _ {rp} h _ := by
    cases rp with
    | sp => exact absurd rfl h
    | _ => rfl
  setPc _ _ := rfl
  setFlags _ _ := rfl
  setInte _ _ := rfl
  setMem _ _ := rfl

/-- What a handler answers, with the state it leaves changed. -/
def mapEnd (g : State → State) : Except Fault (Completion × State) → Except Fault (Completion × State) :=
  Except.map (Prod.map id g)

@[simp] theorem mapEnd_ok (g : State → State) (e : Completion) (t : State) : mapEnd g (.ok (e, t)) = .ok (e, g t) := rfl

@[simp] theorem mapEnd_error (g : State → State) (f : Fault) : mapEnd g (.error f) = .error f := rfl

namespace Inert

variable {φ : Flags → Flags} {g : State → State} (hg : Inert φ g) (s : State) (op : Byte)
include hg

/-! What is read is the same after the update. -/

theorem addrM : addrM (g s) = addrM s := hg.rp s (by decide)

theorem inBounds (addr : Word) : (g s).inBounds addr = s.inBounds addr := by simp only [State.inBounds, hg.mem]

theorem byteAt (addr : Word) : (g s).byteAt addr = s.byteAt addr := by simp only [State.byteAt, hg.mem]

theorem memRead (addr : Word) (o : Option Byte) : memRead addr o (g s) = memRead addr o s := by
  simp only [Machine.memRead, raiseOutOfBounds, hg.inBounds, hg.byteAt, hg.pc]

theorem fetchByte (k : Nat) : fetchByte k op (g s) = fetchByte k op s := by
  simp only [fetchByte_eq, hg.memRead, hg.pc]

theorem src (o : Operand8) : src o op (g s) = src o op s := by
  cases o with
  | reg r => simp only [src_reg, hg.reg]
  | m => simp only [src_m, hg.addrM, hg.memRead]

theorem target : target op (g s) = target op s := by simp only [Machine.target, hg.fetchByte]

/-! What is written commutes with the update. -/

theorem setByte (addr : Word) (v : Byte) : (g s).setByte addr v = g (s.setByte addr v) := by
  simp only [State.setByte, hg.mem, hg.setMem]

theorem accumulate (f : AluOp) (v : Byte) : accumulate f v (g s) = g (accumulate f v s) := by
  have ha : (g s).a = s.a := hg.reg s .a
  simp only [Machine.accumulate, ha, hg.flags, hg.cy, hg.arith8, hg.setReg, hg.setFlags]

/-! So each handler commutes with the update. -/

theorem aluHandler (f : AluOp) (o : Operand8) : aluHandler f o op (g s) = mapEnd g (aluHandler f o op s) := by
  simp only [Machine.aluHandler, hg.src, hg.accumulate]
  cases Machine.src o op s <;> rfl

theorem immHandler (f : ImmOp) : immHandler f op (g s) = mapEnd g (immHandler f op s) := by
  simp only [Machine.immHandler, immediate, hg.fetchByte, hg.accumulate]
  cases Machine.fetchByte 1 op s <;> rfl

theorem incDecHandler (delta : Int) (o : Operand8) :
    incDecHandler delta o op (g s) = mapEnd g (incDecHandler delta o op s) := by
  cases o with
  | reg r => simp only [incDecHandler_reg, hg.reg, hg.flags, hg.incDec8, hg.setReg, hg.setFlags, mapEnd_ok]
  | m =>
    by_cases h : s.inBounds (Machine.addrM s)
    · have h' : (g s).inBounds (Machine.addrM (g s)) := by rwa [hg.addrM, hg.inBounds]
      simp only [incDecHandler_m_ok delta h, incDecHandler_m_ok delta h', hg.addrM, hg.byteAt, hg.flags, hg.incDec8, hg.setByte,
        hg.setFlags, mapEnd_ok]
    · have h' : ¬ (g s).inBounds (Machine.addrM (g s)) := by rwa [hg.addrM, hg.inBounds]
      simp only [incDecHandler_m_oob delta h, incDecHandler_m_oob delta h', hg.addrM, hg.pc, mapEnd_error]

theorem branch (taken : Bool) : branch taken op (g s) = mapEnd g (branch taken op s) := by
  cases taken with
  | false => rfl
  | true =>
    simp only [Machine.branch, hg.target, hg.setPc, if_true]
    cases Machine.target op s <;> rfl

/-- Every handler that does not name SP as its pair commutes with the update. -/
theorem handlerOf (form : Form) (h : form ∉ [Form.inx .sp, .dcx .sp, .dad .sp]) :
    handlerOf form op (g s) = mapEnd g (handlerOf form op s) := by
  cases form with
  | alu f o => exact hg.aluHandler s op f o
  | aluImm f => exact hg.immHandler s op f
  | inr o => exact hg.incDecHandler s op 1 o
  | dcr o => exact hg.incDecHandler s op (-1) o
  | inx rp =>
    have hrp : rp ≠ .sp := by rintro rfl; simp at h
    simp only [Machine.handlerOf, inxHandler, hg.rp s hrp, hg.setRp s hrp, mapEnd_ok]
  | dcx rp =>
    have hrp : rp ≠ .sp := by rintro rfl; simp at h
    simp only [Machine.handlerOf, dcxHandler, hg.rp s hrp, hg.setRp s hrp, mapEnd_ok]
  | dad rp =>
    have hrp : rp ≠ .sp := by rintro rfl; simp at h
    have hhl : RegPair.hl ≠ .sp := by decide
    simp only [Machine.handlerOf, dadHandler, hg.rp s hrp, hg.rp s hhl, hg.setRp s hhl, hg.flags, hg.carry16, hg.setFlags,
      mapEnd_ok]
  | jmp => exact hg.branch s op true
  | jcc cc => simp only [Machine.handlerOf, jccHandler, hg.flags, hg.condHolds, hg.branch]
  | hlt => rfl
  | ei => simp only [Machine.handlerOf, eiHandler, hg.setInte, mapEnd_ok]
  | di => simp only [Machine.handlerOf, diHandler, hg.setInte, mapEnd_ok]
  | unimplemented o => simp only [Machine.handlerOf, unimplementedHandler, raiseUnimplemented, hg.pc, mapEnd_error]

theorem advance (pc0 : Word) (e : Completion) : advance pc0 e (g s) = g (advance pc0 e s) := by
  cases e with
  | cont n => simp only [advance_cont, hg.setPc]
  | jumped => rfl
  | halted => rfl

/-- The engine passes the update through when the handler does. -/
theorem runHandler {h : Handler} (hh : h op (g s) = mapEnd g (h op s)) :
    runHandler op h (g s) = mapNext g (runHandler op h s) := by
  simp only [Machine.runHandler, hh, hg.pc]
  cases h op s with
  | error f => rfl
  | ok r => exact congrArg Host.Outcome.next (hg.advance r.2 s.pc r.1)

/-- Every instruction but the three that name SP as their pair commutes with the update. -/
theorem exec {i : Instr} (hi : i ∉ [Instr.inxSp, .dcxSp, .dadSp]) : exec i (g s) = mapNext g (exec i s) := by
  have hform : i.form ∉ [Form.inx .sp, .dcx .sp, .dad .sp] := fun h =>
    hi (Instr.instr_form i ▸ List.mem_map_of_mem (f := Form.instr) h)
  simp only [exec_eq_runHandler]
  exact hg.runHandler s _ (hg.handlerOf s _ i.form hform)

end Inert

/-- An update that changes nothing before an instruction and commutes with it changes nothing after it. -/
theorem next_fixed_of_commutes {g : State → State} {i : Instr} {s t : State} (hs : g s = s)
    (hc : exec i (g s) = mapNext g (exec i s)) (ht : exec i s = .next t) : g t = t := by
  rw [hs, ht] at hc
  exact (Host.Outcome.next.inj hc).symm

/-- Replacing AC commutes with every instruction: the three that name SP have no flag as input and write no flag but CY. -/
theorem exec_withAc (i : Instr) (s : State) (x : Bool) : exec i (withAc x s) = mapNext (withAc x) (exec i s) := by
  by_cases hi : i ∈ [Instr.inxSp, .dcxSp, .dadSp]
  · simp only [List.mem_cons, List.not_mem_nil, or_false] at hi
    rcases hi with rfl | rfl | rfl <;> rfl
  · exact (withAc_inert x).exec s hi

/-- DAD SP reads SP and writes HL and CY. -/
theorem execDadSp_sp {s t : State} (h : exec .dadSp s = .next t) : t.sp = s.sp := by
  cases h; rfl

/-- Settles O32: replacing AC commutes with every handler, and replacing AC by itself shows that AC is kept. -/
theorem auxiliaryCarryIsInert : Obligations.AuxiliaryCarryIsInert := by
  intro i s x
  refine ⟨fun t ht => ?_, exec_withAc i s x⟩
  have hfix : withAc s.flags.ac t = t := next_fixed_of_commutes rfl (exec_withAc i s _) ht
  exact (congrArg (fun u => u.flags.ac) hfix).symm

/-- Settles O33: replacing SP commutes with every handler that does not name SP, and replacing SP by itself shows that SP is
kept; DAD SP reads SP and keeps it. -/
theorem stackPointerIsAPlainCounter : Obligations.StackPointerIsAPlainCounter := by
  intro i s x
  have hc (y : Word) (h1 : i ≠ .inxSp) (h2 : i ≠ .dcxSp) (h3 : i ≠ .dadSp) :
      exec i (withSp y s) = mapNext (withSp y) (exec i s) := (withSp_inert y).exec s (by simp [h1, h2, h3])
  refine ⟨fun h1 h2 t ht => ?_, hc x⟩
  by_cases h3 : i = .dadSp
  · subst h3
    exact execDadSp_sp ht
  · have hfix : withSp s.sp t = t := next_fixed_of_commutes rfl (hc s.sp h1 h2 h3) ht
    exact (congrArg State.sp hfix).symm

end Sys2Proof.Proofs
end

section
/-! Family 30_encoding.md. The length of an instruction goes by its class (R71), so the lengths of R83 are one case per class. -/

namespace Sys2Proof.Proofs

open Sys2Proof Sys2Proof.Machine Sys2Proof.Claims

/-- Only ADI, ACI, SUI, JMP and the eight conditional jumps are longer than their opcode byte. -/
theorem longer_or_length_eq_one (g : Form) :
    g.instr ∈ ([.adi, .aci, .sui, .jmp, .jnz, .jz, .jnc, .jc, .jpo, .jpe, .jp, .jm] : List Instr) ∨
    g.format.length = 1 := by
  cases g with
  | aluImm f => left; cases f <;> decide
  | jmp => left; decide
  | jcc cc => left; cases cc <;> decide
  | alu | inr | dcr | inx | dcx | dad | hlt | ei | di | unimplemented => right; rfl

/-- A handler that continues reports the length of its class. -/
theorem handlerOf_cont_length {g : Form} {op : Byte} {s t : State} {n : Nat}
    (h : handlerOf g op s = .ok (.cont n, t)) : n = g.format.length := by
  obtain ⟨-, -, hcont⟩ := handlerOf_ending h
  exact hcont n rfl

/-- Settles O41: the listed lengths by the format of each class, the rest because no other class is longer than one byte, and the
length reported by how a handler can end. -/
theorem handlersReportTheirLength : Obligations.HandlersReportTheirLength := by
  refine ⟨by decide, by decide, fun i hi _ => ?_, fun i _ _ _ _ h => handlerOf_cont_length h⟩
  rw [← i.instr_form] at hi
  exact (longer_or_length_eq_one i.form).resolve_left hi

end Sys2Proof.Proofs
end

section
/-! Family 41_flags.md. The sign is bit 7 of the truncated intermediate (R122) and the parity is that of its number of ones
(R123). -/

namespace Sys2Proof.Proofs

open Sys2Proof Sys2Proof.Machine Sys2Proof.Claims

/-- The evaluator's sign is bit 7 of the low 8 bits (R122). -/
@[simp] theorem evaluate_sign (t : Int) (cls : CarryClass) :
    (evaluate t cls).sign = (BitVec.ofInt 8 t).getLsbD 7 := rfl

/-- The evaluator's parity is that of the low 8 bits (R123). -/
@[simp] theorem evaluate_parity (t : Int) (cls : CarryClass) :
    (evaluate t cls).parity = parity8 (BitVec.ofInt 8 t) := rfl

theorem parity8_eq_evenOnes (v : Byte) : parity8 v = evenOnes v := parity8_eq_xor v

theorem parity8_eq_true_iff (v : Byte) : parity8 v = true ↔ 2 ∣ onesCount v := by
  rw [parity8, beq_iff_eq, Nat.dvd_iff_mod_eq_zero]

theorem onesCount_zero : onesCount 0x00 = 0 := by decide

theorem onesCount_twoPow : ∀ k : Fin 8, onesCount (BitVec.twoPow 8 k) = 1 := by decide

/-- Settles O24: the sign is bit 7 by definition, and bit 7 of the truncated t says that t mod 256 is 128 or more. -/
theorem signFlagIsBitSeven : Obligations.SignFlagIsBitSeven := fun t cls =>
  ⟨(evaluate_sign t cls).trans (sign_ofInt t), evaluate_sign t cls⟩

/-- Settles O25: parity8 counts the ones modulo 2, as the exclusive-or fold does; 0x00 has none and a power of two has one. -/
theorem parityIsEvenNumberOfOnes : Obligations.ParityIsEvenNumberOfOnes := by
  refine ⟨fun v => ⟨parity8_eq_evenOnes v, parity8_eq_true_iff v⟩, ?_, fun k => ?_, evaluate_parity⟩
  · rw [parity8_eq_true_iff, onesCount_zero]
    exact dvd_zero 2
  · rw [← Bool.not_eq_true, parity8_eq_true_iff, onesCount_twoPow]
    decide

end Sys2Proof.Proofs
end

section
/-! Noninterference. INTE and AC are forgotten by `forgetInert`: what a step answers, up to INTE and AC, does not depend on them
(D8, D25). One lemma per handler, then the engine, the step and any number of steps. -/

namespace Sys2Proof.Proofs

open Sys2Proof Sys2Proof.Machine Sys2Proof.Claims

/-- A handler answers the same, up to INTE and AC, when INTE and AC are forgotten before it. -/
def IgnoresInert (h : Handler) : Prop :=
  ∀ (op : Byte) (s : State), mapEnd forgetInert (h op (forgetInert s)) = mapEnd forgetInert (h op s)

theorem src_forgetInert (o : Operand8) (op : Byte) (s : State) : src o op (forgetInert s) = src o op s := by
  cases o with
  | reg r => cases r <;> rfl
  | m => rfl

theorem aluHandler_ignoresInert (f : AluOp) (o : Operand8) : IgnoresInert (aluHandler f o) := by
  intro op s
  simp only [aluHandler, src_forgetInert]
  cases src o op s <;> rfl

theorem immHandler_ignoresInert (f : ImmOp) : IgnoresInert (immHandler f) := by
  intro op s
  have himm : immediate op (forgetInert s) = immediate op s := rfl
  simp only [immHandler, himm]
  cases immediate op s <;> rfl

theorem incDecHandler_ignoresInert (delta : Int) (o : Operand8) : IgnoresInert (incDecHandler delta o) := by
  intro op s
  cases o with
  | reg r => cases r <;> rfl
  | m =>
    by_cases h : s.inBounds (addrM s)
    · have h' : (forgetInert s).inBounds (addrM (forgetInert s)) := h
      simp only [incDecHandler_m_ok delta h, incDecHandler_m_ok delta h', mapEnd_ok]
      rfl
    · have h' : ¬ (forgetInert s).inBounds (addrM (forgetInert s)) := h
      simp only [incDecHandler_m_oob delta h, incDecHandler_m_oob delta h', mapEnd_error]
      rfl

theorem branch_ignoresInert (taken : Bool) : IgnoresInert (branch taken) := by
  intro op s
  cases taken with
  | false => rfl
  | true =>
    have htarget : target op (forgetInert s) = target op s := rfl
    simp only [branch, htarget, if_true]
    cases target op s <;> rfl

/-- No handler reads INTE or AC: EI and DI write INTE, and no flag-update scope or condition looks at AC. -/
theorem handlerOf_ignoresInert (g : Form) : IgnoresInert (handlerOf g) := by
  cases g with
  | alu f o => exact aluHandler_ignoresInert f o
  | aluImm f => exact immHandler_ignoresInert f
  | inr o => exact incDecHandler_ignoresInert 1 o
  | dcr o => exact incDecHandler_ignoresInert (-1) o
  | inx rp => intro op s; cases rp <;> rfl
  | dcx rp => intro op s; cases rp <;> rfl
  | dad rp => intro op s; cases rp <;> rfl
  | jmp => exact branch_ignoresInert true
  | jcc cc => intro op s; cases cc <;> exact branch_ignoresInert _ op s
  | hlt | ei | di | unimplemented => intro op s; rfl

theorem forgetInert_advance (pc0 : Word) (e : Completion) (t : State) :
    forgetInert (advance pc0 e t) = advance pc0 e (forgetInert t) := by
  cases e <;> rfl

/-- Forgetting INTE and AC after the engine is forgetting them in what the handler leaves. -/
theorem mapNext_forgetInert_runHandler (op : Byte) (h : Handler) (s : State) :
    mapNext forgetInert (runHandler op h s) = runHandler op (fun o u => mapEnd forgetInert (h o u)) s := by
  simp only [runHandler]
  cases h op s with
  | error f => rfl
  | ok r => exact congrArg Host.Outcome.next (forgetInert_advance s.pc r.1 r.2)

theorem exec_forgetInert (i : Instr) (s : State) :
    mapNext forgetInert (exec i (forgetInert s)) = mapNext forgetInert (exec i s) := by
  rw [exec_eq_runHandler, exec_eq_runHandler, mapNext_forgetInert_runHandler, mapNext_forgetInert_runHandler]
  simp only [runHandler, handlerOf_ignoresInert i.form _ s]
  rfl

theorem step_forgetInert (s : State) : mapNext forgetInert (step (forgetInert s)) = mapNext forgetInert (step s) := by
  by_cases h : s.inBounds s.pc
  · have h' : (forgetInert s).inBounds (forgetInert s).pc := h
    rw [step_inBounds h, step_inBounds h']
    exact exec_forgetInert _ s
  · have h' : ¬ (forgetInert s).inBounds (forgetInert s).pc := h
    rw [step_oob h, step_oob h']
    rfl

/-- States that agree up to INTE and AC step to the same answer up to INTE and AC. -/
theorem step_congr_forgetInert {s s' : State} (h : forgetInert s = forgetInert s') :
    mapNext forgetInert (step s) = mapNext forgetInert (step s') := by
  rw [← step_forgetInert s, h, step_forgetInert s']

theorem step_ne_refused (s : State) (r : Refusal) : step s ≠ .refused r := by
  by_cases h : s.inBounds s.pc
  · rw [step_inBounds h]
    exact exec_ne_refused
  · simp [step_oob h]

/-- Settles O34, by induction on the number of steps: one step of each state answers the same up to INTE and AC. -/
theorem latchAndAcDoNotInterfere : Obligations.LatchAndAcDoNotInterfere := by
  intro k
  induction k with
  | zero => exact fun s s' h => .inl ⟨s, s', rfl, rfl, h⟩
  | succ k ih =>
    intro s s' h
    have hstep := step_congr_forgetInert h
    cases hs : step s with
    | next t =>
      cases hs' : step s' with
      | next t' =>
        rw [hs, hs'] at hstep
        simp only [StepsTo, runSteps_next hs, runSteps_next hs']
        exact ih t t' (Host.Outcome.next.inj hstep)
      | fault f => simp [hs, hs', mapNext] at hstep
      | refused r => exact absurd hs' (step_ne_refused s' r)
    | fault f =>
      cases hs' : step s' with
      | next t' => simp [hs, hs', mapNext] at hstep
      | fault f' =>
        rw [hs, hs'] at hstep
        have hf : f = f' := Host.Outcome.fault.inj hstep
        exact .inr ⟨f, runSteps_fault hs, hf ▸ runSteps_fault hs'⟩
      | refused r => exact absurd hs' (step_ne_refused s' r)
    | refused r => exact absurd hs (step_ne_refused s r)

end Sys2Proof.Proofs
end

section
/-! Families 30_encoding.md and 40_dispatch.md. Decoding and encoding undo each other (R70 to R81), and a step runs the line whose
bytes are at PC (R102, R103). -/

namespace Sys2Proof.Proofs

open Sys2Proof Sys2Proof.Machine Sys2Proof.Claims

/-! The opcode byte. -/

/-- Decoding names a well-formed class from that class's own opcode alone. -/
theorem decodeOpcode_form_eq_iff {g : Form} (h : g.wf = true) (op : Byte) : (decodeOpcode op).form = g ↔ op = g.opcode := by
  constructor
  · rintro rfl
    exact (encodeOpcode_decodeOpcode op).symm
  · rintro rfl
    have hwf : g.instr.wf = true := by rwa [Instr.wf, Form.form_instr]
    have hop : encodeOpcode g.instr = g.opcode := congrArg Form.opcode g.form_instr
    rw [← hop, decodeOpcode_encodeOpcode g.instr hwf, Form.form_instr]

theorem decodeOpcode_eq_unimplemented_iff : ∀ op : Byte, decodeOpcode op = .unimplemented op ↔ op ∉ implementedOpcodes := by
  decide

/-- The unimplemented instruction carries the byte it was decoded from. -/
theorem decodeOpcode_unimplemented_opcode {op op' : Byte} (h : decodeOpcode op = .unimplemented op') : op' = op := by
  rw [← encodeOpcode_decodeOpcode op, h]
  rfl

theorem decodeOpcode_injective : Function.Injective decodeOpcode :=
  Function.LeftInverse.injective encodeOpcode_decodeOpcode

/-! The operand bytes. -/

/-- The bytes of an operand that fits decode to it. -/
theorem decodeOperand_bytes : ∀ {o : Operand} {g : Format}, o.fits g = true → ∀ rest : List Byte,
    decodeOperand g (o.bytes ++ rest) = some (o, rest)
  | .none, .f1, _, _ => rfl
  | .d8 _, .f2, _, _ => rfl
  | .a16 _, .f3, _, _ => by simp [Operand.bytes, decodeOperand]

/-- What decodes as an operand fits its format, and its bytes stood at the head. -/
theorem decodeOperand_eq_some {g : Format} {bytes rest : List Byte} {o : Operand}
    (h : decodeOperand g bytes = some (o, rest)) : o.fits g = true ∧ o.bytes ++ rest = bytes := by
  unfold decodeOperand at h
  split at h <;> cases h <;> simp [Operand.fits, Operand.bytes]

/-- An operand fails to decode only where its bytes are missing. -/
theorem decodeOperand_eq_none {g : Format} {bytes : List Byte} (h : decodeOperand g bytes = none) :
    1 + bytes.length < g.length := by
  unfold decodeOperand at h
  split at h <;> cases h <;> simp [Format.length]

theorem line_wf_iff (x : Line) : x.wf = true ↔ x.instr.wf = true ∧ x.operand.fits x.instr.form.format = true :=
  Bool.and_eq_true_iff

/-- Settles O38: the opcode decodes to the instruction, and the operand's bytes to the operand. -/
theorem decodeOfEncodeIsIdentity : Obligations.DecodeOfEncodeIsIdentity := by
  intro x rest hx
  obtain ⟨hinstr, hfits⟩ := (line_wf_iff x).mp hx
  simp only [encode, List.cons_append, decode, decodeOpcode_encodeOpcode x.instr hinstr, decodeOperand_bytes hfits]

/-- Settles O39: the opcode and the operand each encode back to their bytes, and only the operand can fail to decode. -/
theorem encodeOfDecodeIsIdentity : Obligations.EncodeOfDecodeIsIdentity := by
  constructor
  · intro bytes rest x h
    cases bytes with
    | nil => cases h
    | cons op bytes =>
      simp only [decode] at h
      split at h
      next o rest' ho =>
        obtain ⟨hfits, hbytes⟩ := decodeOperand_eq_some ho
        cases h
        refine ⟨(line_wf_iff _).mpr ⟨decodeOpcode_wf op, hfits⟩, ?_⟩
        simp only [encode, encodeOpcode_decodeOpcode, List.cons_append, hbytes]
      next => cases h
  · intro bytes e h
    cases bytes with
    | nil => exact .inl rfl
    | cons op bytes =>
      simp only [decode] at h
      split at h
      next => cases h
      next ho =>
        have hlt := decodeOperand_eq_none ho
        exact .inr ⟨op, bytes, rfl, by rw [List.length_cons, Nat.add_comm]; exact hlt⟩

/-- Settles O36: the byte at PC decodes to the line's instruction, and the bytes after it are those that the handler fetches. -/
theorem stepRunsEncodedLine : Obligations.StepRunsEncodedLine := by
  intro x s hx hbytes
  obtain ⟨hinstr, hfits⟩ := (line_wf_iff x).mp hx
  obtain ⟨i, o⟩ := x
  refine ⟨?_, ?_, ?_⟩
  · obtain ⟨hpc, hop⟩ := hbytes 0 (by simp [encode])
    simp only [encode, List.getElem_cons_zero, BitVec.add_zero] at hpc hop
    rw [step_inBounds hpc, hop, decodeOpcode_encodeOpcode i hinstr]
  · rintro v rfl
    obtain ⟨h1, hv⟩ := hbytes 1 (by simp [encode, Operand.bytes])
    exact memRead_eq_ok.mpr ⟨h1, hv⟩
  · rintro v rfl
    obtain ⟨h1, hlo⟩ := hbytes 1 (by simp [encode, Operand.bytes])
    obtain ⟨h2, hhi⟩ := hbytes 2 (by simp [encode, Operand.bytes])
    refine target_eq_ok.mpr ⟨h1, h2, ?_⟩
    rw [hlo, hhi]
    exact wordOfBytes_high_low v

/-- Settles O35: every opcode decodes to a well-formed instruction that encodes back to it; the step is the fetch and its run. -/
theorem stepRunsDecodedInstruction : Obligations.StepRunsDecodedInstruction := fun _ =>
  ⟨fun h => ⟨decodeOpcode_wf _, encodeOpcode_decodeOpcode _, step_inBounds h⟩, step_oob⟩

/-- Settles O37: each word decodes by evaluation. -/
theorem decodedWordsAreRight : Obligations.DecodedWordsAreRight :=
  ⟨rfl, rfl, rfl, rfl, rfl, rfl, rfl, rfl, rfl, rfl, rfl, rfl, rfl, rfl⟩

/-- Settles O40: decoding is injective because encoding undoes it, so only its own value is called unimplemented. -/
theorem decodeIsTotalAndUnambiguous : Obligations.DecodeIsTotalAndUnambiguous :=
  ⟨rfl, by decide,
    fun op => ⟨decodeOpcode_eq_unimplemented_iff op, fun _ h => decodeOpcode_unimplemented_opcode h, decodeOpcode_wf op⟩,
    fun _ _ h => decodeOpcode_injective h⟩

end Sys2Proof.Proofs
end

section
/-! Family 42_alu8.md, the accumulator forms (R127 to R141). Every one of them is `accumulated` with the byte and the carry of its
operation; the obligations read the operation and its operand off the instruction's class. -/

namespace Sys2Proof.Proofs

open Sys2Proof Sys2Proof.Machine Sys2Proof.Claims

/-! The flag-update scopes in bytes. -/

/-- Scope ARITH8 writes Z, S and P of the truncated intermediate, and its carry. -/
theorem arith8_eq_zspcy (t : Int) (cls : CarryClass) (f : Flags) :
    arith8 t cls f = zspcy (BitVec.ofInt 8 t) (carryOf t cls) f := by
  simp only [arith8, evaluate, zspcy, getLsbD_seven, parity8_eq_evenOnes]

/-- Scope INCDEC8 writes Z, S and P of the truncated intermediate. -/
theorem incDec8_eq_zspcy (t : Int) (f : Flags) : incDec8 t f = zspcy (BitVec.ofInt 8 t) f.cy f := by
  simp only [incDec8, evaluate, zspcy, getLsbD_seven, parity8_eq_evenOnes]

/-- Z, S and P of a truncated intermediate, in integers. -/
theorem zspcy_ofInt (t : Int) (cy : Bool) (f : Flags) : zspcy (BitVec.ofInt 8 t) cy f =
    ⟨decide (t % 256 = 0), decide (t % 256 ≥ 128), evenOnes (BitVec.ofInt 8 t), cy, f.ac⟩ := by
  simp only [zspcy, zero_ofInt, ← getLsbD_seven, sign_ofInt]

/-- Settles O26: the scopes write the byte's Z, S and P, which are read off t mod 256, and the carry of their class. -/
theorem flagScopesWriteExactly : Obligations.FlagScopesWriteExactly := by
  intro t f
  rw [arith8_eq_zspcy, arith8_eq_zspcy, incDec8_eq_zspcy]
  exact ⟨zspcy_ofInt t _ f, zspcy_ofInt t _ f, zspcy_ofInt t _ f, rfl⟩

/-! The result of each operation in bytes. -/

/-- The result byte of an operation (R131, R133, R135, R137). -/
def aluByte (f : AluOp) (a v : Byte) (cy : Bool) : Byte :=
  match f with
  | .add => a + v
  | .adc => a + v + BitVec.ofNat 8 cy.toNat
  | .sub => a - v
  | .sbb => a - v - BitVec.ofNat 8 cy.toNat

/-- CY after an operation: the carry out of an addition, the borrow of a subtraction (R124, R125). -/
def aluCarry (f : AluOp) (a v : Byte) (cy : Bool) : Bool :=
  match f with
  | .add => decide (a.toNat + v.toNat > 255)
  | .adc => decide (a.toNat + v.toNat + cy.toNat > 255)
  | .sub => decide (a.toNat < v.toNat)
  | .sbb => decide (a.toNat < v.toNat + cy.toNat)

theorem ofInt_aluResult (f : AluOp) (a v : Byte) (cy : Bool) : BitVec.ofInt 8 (aluResult f a v cy) = aluByte f a v cy := by
  cases f with
  | add => simpa [aluResult, aluByte] using ofInt_add a v 0
  | adc => exact ofInt_add a v cy.toNat
  | sub => simpa [aluResult, aluByte] using ofInt_sub a v 0
  | sbb => exact ofInt_sub a v cy.toNat

theorem carryOf_aluResult (f : AluOp) (a v : Byte) (cy : Bool) :
    carryOf (aluResult f a v cy) (carryClass f) = aluCarry f a v cy := by
  cases f <;> refine decide_eq_decide.mpr ?_ <;> simp only [aluResult] <;> omega

/-- An accumulator form's write, with PC past its `n` bytes. -/
theorem accumulate_setPc (f : AluOp) (v : Byte) (s : State) (n : Nat) :
    (accumulate f v s).setPc (s.pc + BitVec.ofNat 16 n) =
      accumulated s n (aluByte f s.a v s.flags.cy) (aluCarry f s.a v s.flags.cy) := by
  simp only [accumulate, arith8_eq_zspcy, ofInt_aluResult, carryOf_aluResult]
  rfl

/-! What the accumulator forms do. -/

section
variable {i : Instr} {s : State}

/-- An instruction is the handler of its class, run with its opcode. -/
theorem exec_of_form {g : Form} (h : i.form = g) (s : State) : exec i s = runHandler (encodeOpcode i) (handlerOf g) s :=
  h ▸ exec_eq_runHandler i s

theorem exec_alu_of_src {f : AluOp} {o : Operand8} {v : Byte} (h : i.form = .alu f o)
    (hv : src o (encodeOpcode i) s = .ok v) :
    exec i s = .next (accumulated s 1 (aluByte f s.a v s.flags.cy) (aluCarry f s.a v s.flags.cy)) := by
  rw [exec_of_form h, runHandler_eq_next]
  exact ⟨.cont 1, _, aluHandler_eq_ok.mpr ⟨v, hv, rfl, rfl⟩, accumulate_setPc f v s 1⟩

theorem exec_alu_reg {f : AluOp} {r : Reg8} (h : i.form = .alu f (.reg r)) (s : State) :
    exec i s = .next (accumulated s 1 (aluByte f s.a (s.reg r) s.flags.cy) (aluCarry f s.a (s.reg r) s.flags.cy)) :=
  exec_alu_of_src h rfl

theorem exec_alu_m {f : AluOp} (h : i.form = .alu f .m) (hb : s.inBounds (addrM s)) :
    exec i s = .next (accumulated s 1 (aluByte f s.a (s.byteAt (addrM s)) s.flags.cy)
      (aluCarry f s.a (s.byteAt (addrM s)) s.flags.cy)) :=
  exec_alu_of_src h (memRead_ok hb)

theorem exec_alu_m_oob {f : AluOp} (h : i.form = .alu f .m) (hb : ¬ s.inBounds (addrM s)) :
    exec i s = .fault (.outOfBoundsMemoryAccess (addrM s) s.pc (some (encodeOpcode i))) := by
  rw [exec_of_form h, runHandler_eq_fault]
  exact aluHandler_eq_error.mpr (memRead_oob hb)

theorem exec_imm {f : ImmOp} (h : i.form = .aluImm f) (hb : s.inBounds (s.pc + 1#16)) :
    exec i s = .next (accumulated s 2 (aluByte (immAluOp f) s.a (s.byteAt (s.pc + 1#16)) s.flags.cy)
      (aluCarry (immAluOp f) s.a (s.byteAt (s.pc + 1#16)) s.flags.cy)) := by
  rw [exec_of_form h, runHandler_eq_next]
  exact ⟨.cont 2, _, immHandler_eq_ok.mpr ⟨_, memRead_ok hb, rfl, rfl⟩, accumulate_setPc _ _ s 2⟩

theorem exec_imm_oob {f : ImmOp} (h : i.form = .aluImm f) (hb : ¬ s.inBounds (s.pc + 1#16)) :
    exec i s = .fault (.outOfBoundsMemoryAccess (s.pc + 1#16) s.pc (some (encodeOpcode i))) := by
  rw [exec_of_form h, runHandler_eq_fault]
  exact immHandler_eq_error.mpr (memRead_oob hb)

end

/-- Settles O1: each instruction of the list is ADD of its register. -/
theorem addRegisterResult : Obligations.AddRegisterResult := by
  intro x hx s
  have hform : x.2.1.form = .alu .add (.reg x.1) := by revert x; decide
  exact ⟨by revert x; decide, exec_alu_reg hform s⟩

/-- Settles O2: each instruction of the list is ADC of its register. -/
theorem adcRegisterResult : Obligations.AdcRegisterResult := by
  intro x hx s
  have hform : x.2.1.form = .alu .adc (.reg x.1) := by revert x; decide
  exact ⟨by revert x; decide, exec_alu_reg hform s⟩

/-- Settles O3: each instruction of the list is SUB of its register. -/
theorem subRegisterResult : Obligations.SubRegisterResult := by
  intro x hx s
  have hform : x.2.1.form = .alu .sub (.reg x.1) := by revert x; decide
  exact ⟨by revert x; decide, exec_alu_reg hform s⟩

/-- Settles O4: each instruction of the list is SBB of its register. -/
theorem sbbRegisterResult : Obligations.SbbRegisterResult := by
  intro x hx s
  have hform : x.2.1.form = .alu .sbb (.reg x.1) := by revert x; decide
  exact ⟨by revert x; decide, exec_alu_reg hform s⟩

/-- Settles O5: ADD with the byte at HL as its operand. -/
theorem addMemoryResult : Obligations.AddMemoryResult := fun _ =>
  ⟨rfl, exec_alu_m (f := .add) rfl, exec_alu_m_oob rfl⟩

/-- Settles O6: ADC with the byte at HL as its operand. -/
theorem adcMemoryResult : Obligations.AdcMemoryResult := fun _ =>
  ⟨rfl, exec_alu_m (f := .adc) rfl, exec_alu_m_oob rfl⟩

/-- Settles O7: SUB with the byte at HL as its operand. -/
theorem subMemoryResult : Obligations.SubMemoryResult := fun _ =>
  ⟨rfl, exec_alu_m (f := .sub) rfl, exec_alu_m_oob rfl⟩

/-- Settles O8: SBB with the byte at HL as its operand. -/
theorem sbbMemoryResult : Obligations.SbbMemoryResult := fun _ =>
  ⟨rfl, exec_alu_m (f := .sbb) rfl, exec_alu_m_oob rfl⟩

/-- Settles O9: the immediate form of ADD. -/
theorem adiResult : Obligations.AdiResult := fun _ =>
  ⟨⟨rfl, rfl⟩, exec_imm (f := .adi) rfl, exec_imm_oob rfl⟩

/-- Settles O10: the immediate form of ADC. -/
theorem aciResult : Obligations.AciResult := fun _ =>
  ⟨⟨rfl, rfl⟩, exec_imm (f := .aci) rfl, exec_imm_oob rfl⟩

/-- Settles O11: the immediate form of SUB. -/
theorem suiResult : Obligations.SuiResult := fun _ =>
  ⟨⟨rfl, rfl⟩, exec_imm (f := .sui) rfl, exec_imm_oob rfl⟩

/-! The frame. -/

/-- Is the class one of the accumulator's: ALU r, or its immediate form (R72)? -/
def isAccumulatorForm : Form → Bool
  | .alu _ _ => true
  | .aluImm _ => true
  | _ => false

/-- An accumulator form that answers a next state has taken a result into A and the flags, and moved PC. -/
theorem exec_accumulator_eq_next {i : Instr} {s t : State} (h : isAccumulatorForm i.form = true) (ht : exec i s = .next t) :
    ∃ n v cy, t = accumulated s n v cy := by
  obtain ⟨e, u, hu, rfl⟩ := exec_eq_next.mp ht
  cases hg : i.form with
  | alu f o =>
    rw [hg] at hu
    obtain ⟨v, -, rfl, rfl⟩ := aluHandler_eq_ok.mp hu
    exact ⟨1, _, _, accumulate_setPc f v s 1⟩
  | aluImm f =>
    rw [hg] at hu
    obtain ⟨v, -, rfl, rfl⟩ := immHandler_eq_ok.mp hu
    exact ⟨2, _, _, accumulate_setPc (immAluOp f) v s 2⟩
  | inr | dcr | inx | dcx | dad | jmp | jcc | hlt | ei | di | unimplemented => simp [hg, isAccumulatorForm] at h

/-- Only A is another register after an accumulator form. -/
theorem reg_accumulated (s : State) (n : Nat) (v : Byte) (cy : Bool) {r : Reg8} (hr : r ≠ .a) :
    (accumulated s n v cy).reg r = s.reg r := by
  cases r with
  | a => exact absurd rfl hr
  | _ => rfl

/-- A state with the memory of another reads as it does. -/
theorem keepsMemory_of_eq {s t : State} (h : t.mem = s.mem) : KeepsMemory s t := ⟨by rw [h], fun a => by rw [h]⟩

/-- Settles O27: what an accumulator form leaves is `accumulated`, which writes A, the flags and PC alone. -/
theorem accumulatorFormsFrame : Obligations.AccumulatorFormsFrame := by
  intro i hi
  have hform : isAccumulatorForm i.form = true := by revert i; decide
  intro s t ht
  obtain ⟨n, v, cy, rfl⟩ := exec_accumulator_eq_next hform ht
  exact ⟨fun _ hr => reg_accumulated s n v cy hr, rfl, rfl, rfl, keepsMemory_of_eq rfl⟩

/-! ADD then SUB. -/

/-- The borrow of taking the operand away again is the carry of having added it. -/
theorem borrow_of_sum (a v : Byte) : decide ((a + v).toNat < v.toNat) = decide (a.toNat + v.toNat > 255) := by
  have ha := a.isLt
  have hv := v.isLt
  rw [decide_eq_decide, BitVec.toNat_add]
  omega

/-- Two one-byte instructions move PC on by two. -/
theorem add_one_add_one (a : Word) : a + 1#16 + 1#16 = a + 2#16 := by
  rw [BitVec.add_assoc]
  rfl

/-- ADD r then SUB r, for a register other than A: A is back, and CY says whether the addition wrapped. -/
theorem accumulated_add_sub (s : State) {r : Reg8} (hr : r ≠ .a) :
    let t := accumulated s 1 (s.a + s.reg r) (decide (s.a.toNat + (s.reg r).toNat > 255))
    accumulated t 1 (t.a - t.reg r) (decide (t.a.toNat < (t.reg r).toNat)) =
      { s with flags := zspcy s.a (decide (s.a.toNat + (s.reg r).toNat > 255)) s.flags, pc := s.pc + 2#16 } := by
  intro t
  have ht : t.a = s.a + s.reg r := rfl
  rw [reg_accumulated s _ _ _ hr, ht, borrow_of_sum, BitVec.add_sub_cancel]
  simp only [accumulated, zspcy, t]
  rw [add_one_add_one]

/-- Settles O56: the two instructions are ADD and SUB of the register, which is not A. -/
theorem addThenSubRestores : Obligations.AddThenSubRestores := by
  intro x hx s
  have hadd : x.2.1.form = .alu .add (.reg x.1) := by revert x; decide
  have hsub : x.2.2.form = .alu .sub (.reg x.1) := by revert x; decide
  have hr : x.1 ≠ .a := by revert x; decide
  refine ⟨_, exec_alu_reg hadd s, (exec_alu_reg hsub _).trans ?_⟩
  exact congrArg Host.Outcome.next (accumulated_add_sub s hr)

end Sys2Proof.Proofs
end

section
/-! Family 42_alu8.md, INR and DCR (R142 to R145). Both are `incDecHandler` with a delta of 1 or -1, so each fact is proved once over
the delta. -/

namespace Sys2Proof.Proofs

open Sys2Proof Sys2Proof.Machine Sys2Proof.Claims

/-- Adding an integer to a byte before truncation is adding it mod 256. -/
theorem ofInt_toNat_add (v : Byte) (delta : Int) : BitVec.ofInt 8 (v.toNat + delta) = v + BitVec.ofInt 8 delta := by
  rw [BitVec.ofInt_add, BitVec.ofInt_natCast, BitVec.ofNat_toNat, BitVec.setWidth_eq]

theorem add_ofInt_neg_one (v : Byte) : v + BitVec.ofInt 8 (-1) = v - 1 := by
  rw [BitVec.sub_eq_add_neg]
  rfl

/-- A state after INR or DCR of a register. -/
def steppedReg (s : State) (r : Reg8) (v : Byte) : State :=
  ((s.setReg r v).setFlags (zspcy v s.flags.cy s.flags)).setPc (s.pc + 1#16)

/-- A state after INR M or DCR M. -/
def steppedByte (s : State) (v : Byte) : State :=
  ((s.setByte (addrM s) v).setFlags (zspcy v s.flags.cy s.flags)).setPc (s.pc + 1#16)

section
variable {i : Instr} {s : State}

theorem runHandler_incDec_reg (op : Byte) (delta : Int) (r : Reg8) (s : State) :
    runHandler op (incDecHandler delta (.reg r)) s = .next (steppedReg s r (s.reg r + BitVec.ofInt 8 delta)) := by
  rw [runHandler_eq_next]
  refine ⟨_, _, incDecHandler_reg delta r, ?_⟩
  simp only [advance_cont, ofInt_toNat_add, incDec8_eq_zspcy]
  rfl

theorem runHandler_incDec_m (op : Byte) (delta : Int) (h : s.inBounds (addrM s)) :
    runHandler op (incDecHandler delta .m) s = .next (steppedByte s (s.byteAt (addrM s) + BitVec.ofInt 8 delta)) := by
  rw [runHandler_eq_next]
  refine ⟨_, _, incDecHandler_m_ok delta h, ?_⟩
  simp only [advance_cont, ofInt_toNat_add, incDec8_eq_zspcy]
  rfl

theorem runHandler_incDec_m_oob (op : Byte) (delta : Int) (h : ¬ s.inBounds (addrM s)) :
    runHandler op (incDecHandler delta .m) s = .fault (.outOfBoundsMemoryAccess (addrM s) s.pc (some op)) :=
  runHandler_eq_fault.mpr (incDecHandler_m_oob delta h)

end

/-! What the two states hold. -/

/-- After INR r or DCR r: the register, Z, S, P and PC are written, everything else is as before. -/
theorem steppedReg_spec (s : State) (r : Reg8) (v : Byte) :
    (steppedReg s r v).reg r = v ∧ (∀ r', r' ≠ r → (steppedReg s r v).reg r' = s.reg r') ∧
    (steppedReg s r v).flags = zspcy v s.flags.cy s.flags ∧ (steppedReg s r v).pc = s.pc + 1#16 ∧
    (steppedReg s r v).sp = s.sp ∧ (steppedReg s r v).inte = s.inte ∧ (steppedReg s r v).mem = s.mem :=
  ⟨by simp [steppedReg], fun r' hr => by simp [steppedReg, hr], rfl, rfl, s.setReg_sp r v, s.setReg_inte r v, s.setReg_mem r v⟩

/-- After INR M or DCR M: the byte at HL, Z, S, P and PC are written, everything else is as before. -/
theorem steppedByte_spec (s : State) (v : Byte) :
    (∀ a : Nat, a ≠ (addrM s).toNat → (steppedByte s v).mem.read a = s.mem.read a) ∧
    (steppedByte s v).mem.size = s.mem.size ∧ (steppedByte s v).flags = zspcy v s.flags.cy s.flags ∧
    (∀ r, (steppedByte s v).reg r = s.reg r) ∧ (steppedByte s v).pc = s.pc + 1#16 ∧ (steppedByte s v).sp = s.sp ∧
    (steppedByte s v).inte = s.inte :=
  ⟨fun _ ha => Memory.read_write_ne s.mem v ha, rfl, rfl, fun r => by simp [steppedByte], rfl, rfl, rfl⟩

/-- After INR M or DCR M of a canonical memory, the byte at HL is the one written. -/
theorem steppedByte_byteAt {s : State} (h : s.mem.wf) (v : Byte) : (steppedByte s v).byteAt (addrM s) = v :=
  Memory.read_write_self h _ v

/-! The obligations. -/

theorem exec_inr_reg {i : Instr} {r : Reg8} (h : i.form = .inr (.reg r)) (s : State) :
    exec i s = .next (steppedReg s r (s.reg r + 1)) :=
  (exec_of_form h s).trans (runHandler_incDec_reg _ 1 r s)

theorem exec_dcr_reg {i : Instr} {r : Reg8} (h : i.form = .dcr (.reg r)) (s : State) :
    exec i s = .next (steppedReg s r (s.reg r - 1)) :=
  (exec_of_form h s).trans ((runHandler_incDec_reg _ (-1) r s).trans (by rw [add_ofInt_neg_one]))

theorem exec_inrM {s : State} (h : s.inBounds (addrM s)) : exec .inrM s = .next (steppedByte s (s.byteAt (addrM s) + 1)) :=
  runHandler_incDec_m 0x34 1 h

theorem exec_dcrM {s : State} (h : s.inBounds (addrM s)) : exec .dcrM s = .next (steppedByte s (s.byteAt (addrM s) - 1)) :=
  (runHandler_incDec_m 0x35 (-1) h).trans (by rw [add_ofInt_neg_one])

theorem exec_inrM_oob {s : State} (h : ¬ s.inBounds (addrM s)) :
    exec .inrM s = .fault (.outOfBoundsMemoryAccess (addrM s) s.pc (some 0x34)) :=
  runHandler_incDec_m_oob 0x34 1 h

theorem exec_dcrM_oob {s : State} (h : ¬ s.inBounds (addrM s)) :
    exec .dcrM s = .fault (.outOfBoundsMemoryAccess (addrM s) s.pc (some 0x35)) :=
  runHandler_incDec_m_oob 0x35 (-1) h

/-- Settles O12: each instruction of the list is INR of its register. -/
theorem inrRegisterResult : Obligations.InrRegisterResult := by
  intro x hx s
  have hform : x.2.1.form = .inr (.reg x.1) := by revert x; decide
  exact ⟨by revert x; decide, _, exec_inr_reg hform s, steppedReg_spec s x.1 _⟩

/-- Settles O13: each instruction of the list is DCR of its register. -/
theorem dcrRegisterResult : Obligations.DcrRegisterResult := by
  intro x hx s
  have hform : x.2.1.form = .dcr (.reg x.1) := by revert x; decide
  exact ⟨by revert x; decide, _, exec_dcr_reg hform s, steppedReg_spec s x.1 _⟩

/-- Settles O14: the store at HL reads back in a canonical memory. -/
theorem inrMemoryResult : Obligations.InrMemoryResult :=
  ⟨rfl, fun s => ⟨fun hm hb => ⟨_, exec_inrM hb, steppedByte_byteAt hm _, steppedByte_spec s _⟩, exec_inrM_oob⟩⟩

/-- Settles O15: the store at HL reads back in a canonical memory. -/
theorem dcrMemoryResult : Obligations.DcrMemoryResult :=
  ⟨rfl, fun s => ⟨fun hm hb => ⟨_, exec_dcrM hb, steppedByte_byteAt hm _, steppedByte_spec s _⟩, exec_dcrM_oob⟩⟩

/-- Settles O28: INR and DCR of a register leave `steppedReg`. -/
theorem incrementRegisterFrame : Obligations.IncrementRegisterFrame := by
  intro x hx
  have hform : x.2.form = .inr (.reg x.1) ∨ x.2.form = .dcr (.reg x.1) := by revert x; decide
  intro s t ht
  obtain ⟨v, hv⟩ : ∃ v, exec x.2 s = .next (steppedReg s x.1 v) := by
    rcases hform with h | h
    · exact ⟨_, exec_inr_reg h s⟩
    · exact ⟨_, exec_dcr_reg h s⟩
  cases hv.symm.trans ht
  obtain ⟨-, hreg, hflags, -, hsp, hinte, hmem⟩ := steppedReg_spec s x.1 v
  exact ⟨hreg, hsp, hinte, by rw [hflags]; rfl, by rw [hflags]; rfl, keepsMemory_of_eq hmem⟩

/-- INR M and DCR M answer a next state only with HL inside the buffer, and it is `steppedByte`. -/
theorem exec_storing_eq_next {i : Instr} {s t : State} (hi : i ∈ ([.inrM, .dcrM] : List Instr)) (ht : exec i s = .next t) :
    s.inBounds (addrM s) ∧ ∃ v, t = steppedByte s v := by
  simp only [List.mem_cons, List.not_mem_nil, or_false] at hi
  by_cases hb : s.inBounds (addrM s)
  · rcases hi with rfl | rfl
    · exact ⟨hb, _, Host.Outcome.next.inj (ht.symm.trans (exec_inrM hb))⟩
    · exact ⟨hb, _, Host.Outcome.next.inj (ht.symm.trans (exec_dcrM hb))⟩
  · rcases hi with rfl | rfl
    · cases ht.symm.trans (exec_inrM_oob hb)
    · cases ht.symm.trans (exec_dcrM_oob hb)

/-- Settles O29: INR M and DCR M leave `steppedByte`. -/
theorem storingFormsFrame : Obligations.StoringFormsFrame := by
  intro i hi s t ht
  obtain ⟨-, v, rfl⟩ := exec_storing_eq_next hi ht
  obtain ⟨hmem, hsize, hflags, hreg, -, hsp, hinte⟩ := steppedByte_spec s v
  exact ⟨hmem, hsize, hreg, hsp, hinte, by rw [hflags]; rfl, by rw [hflags]; rfl⟩

end Sys2Proof.Proofs
end

section
/-! Family 43_pair_arith.md (R170 to R174). INX and DCX write one pair, DAD writes HL and CY; the pairs are views of the registers
(R23). -/

namespace Sys2Proof.Proofs

open Sys2Proof Sys2Proof.Machine Sys2Proof.Claims

/-- A state after INX or DCX. -/
def steppedRp (s : State) (rp : RegPair) (v : Word) : State := (s.setRp rp v).setPc (s.pc + 1#16)

/-- A state after DAD. -/
def addedToHl (s : State) (v : Word) (cy : Bool) : State :=
  ((s.setRp .hl v).setFlags { s.flags with cy := cy }).setPc (s.pc + 1#16)

theorem exec_inx {i : Instr} {rp : RegPair} (h : i.form = .inx rp) (s : State) :
    exec i s = .next (steppedRp s rp (s.rp rp + 1)) :=
  exec_of_form h s

theorem exec_dcx {i : Instr} {rp : RegPair} (h : i.form = .dcx rp) (s : State) :
    exec i s = .next (steppedRp s rp (s.rp rp - 1)) :=
  exec_of_form h s

/-- A sum of two words, truncated, is the word sum. -/
theorem ofInt_add_words (a v : Word) : BitVec.ofInt 16 ((a.toNat : Int) + v.toNat) = a + v := by
  rw [BitVec.ofInt_add, BitVec.ofInt_natCast, BitVec.ofInt_natCast, BitVec.ofNat_toNat, BitVec.ofNat_toNat,
    BitVec.setWidth_eq, BitVec.setWidth_eq]

theorem carry16_eq (t : Nat) (f : Flags) : carry16 t f = { f with cy := decide (t > 65535) } := by
  simp only [carry16, evaluate, carryOf, Flags.mk.injEq, true_and, and_true, decide_eq_decide]
  omega

theorem exec_dad {i : Instr} {rp : RegPair} (h : i.form = .dad rp) (s : State) :
    exec i s = .next (addedToHl s (s.rp .hl + s.rp rp) (decide ((s.rp .hl).toNat + (s.rp rp).toNat > 65535))) := by
  rw [exec_of_form h, runHandler_eq_next]
  refine ⟨_, _, rfl, ?_⟩
  rw [← Int.natCast_add, carry16_eq, Int.natCast_add, ofInt_add_words]
  rfl

/-- After INX or DCX: the pair and PC are written, everything else is as before. -/
theorem steppedRp_spec (s : State) (rp : RegPair) (v : Word) :
    (∀ rp', rp' ≠ rp → (steppedRp s rp v).rp rp' = s.rp rp') ∧ (steppedRp s rp v).a = s.a ∧
    (steppedRp s rp v).flags = s.flags ∧ (steppedRp s rp v).pc = s.pc + 1#16 ∧ (steppedRp s rp v).inte = s.inte ∧
    (steppedRp s rp v).mem = s.mem :=
  ⟨fun rp' h => by simp [steppedRp, h], s.setRp_a rp v, s.setRp_flags rp v, rfl, s.setRp_inte rp v, s.setRp_mem rp v⟩

@[simp] theorem rp_steppedRp (s : State) (rp : RegPair) (v : Word) : (steppedRp s rp v).rp rp = v := by
  simp [steppedRp]

/-- After DAD: HL, CY and PC are written, everything else is as before. -/
theorem addedToHl_spec (s : State) (v : Word) (cy : Bool) :
    (∀ rp, rp ≠ .hl → (addedToHl s v cy).rp rp = s.rp rp) ∧ (addedToHl s v cy).flags = { s.flags with cy := cy } ∧
    (addedToHl s v cy).a = s.a ∧ (addedToHl s v cy).pc = s.pc + 1#16 ∧ (addedToHl s v cy).inte = s.inte ∧
    (addedToHl s v cy).mem = s.mem :=
  ⟨fun rp h => by simp [addedToHl, h], rfl, rfl, rfl, rfl, rfl⟩

@[simp] theorem rp_addedToHl (s : State) (v : Word) (cy : Bool) : (addedToHl s v cy).rp .hl = v := by
  simp [addedToHl]

/-- Settles O16: each instruction of the list is INX of its pair. -/
theorem inxResult : Obligations.InxResult := by
  intro x hx s
  have hform : x.2.1.form = .inx x.1 := by revert x; decide
  exact ⟨by revert x; decide, _, exec_inx hform s, by rw [rp_steppedRp, BitVec.toNat_add]; rfl, steppedRp_spec s x.1 _⟩

/-- Settles O17: each instruction of the list is DCX of its pair. -/
theorem dcxResult : Obligations.DcxResult := by
  intro x hx s
  have hform : x.2.1.form = .dcx x.1 := by revert x; decide
  refine ⟨by revert x; decide, _, exec_dcx hform s, ?_, steppedRp_spec s x.1 _⟩
  rw [rp_steppedRp, BitVec.toNat_sub, Nat.add_comm]
  rfl

/-- Settles O18: each instruction of the list is DAD of its pair. -/
theorem dadResult : Obligations.DadResult := by
  intro x hx s
  have hform : x.2.1.form = .dad x.1 := by revert x; decide
  exact ⟨by revert x; decide, _, exec_dad hform s, by rw [rp_addedToHl, BitVec.toNat_add], addedToHl_spec s _ _⟩

/-- Settles O30: INX and DCX leave `steppedRp`, and DAD leaves `addedToHl`. -/
theorem pairFormsFrame : Obligations.PairFormsFrame := by
  constructor
  · intro x hx
    have hform : x.2.form = .inx x.1 ∨ x.2.form = .dcx x.1 := by revert x; decide
    intro s t ht
    obtain ⟨v, hv⟩ : ∃ v, exec x.2 s = .next (steppedRp s x.1 v) := by
      rcases hform with h | h
      · exact ⟨_, exec_inx h s⟩
      · exact ⟨_, exec_dcx h s⟩
    cases hv.symm.trans ht
    obtain ⟨hrp, ha, hflags, -, hinte, hmem⟩ := steppedRp_spec s x.1 v
    exact ⟨hrp, ha, hinte, hflags, keepsMemory_of_eq hmem⟩
  · intro i hi
    have hform : i.form = .dad .bc ∨ i.form = .dad .de ∨ i.form = .dad .hl ∨ i.form = .dad .sp := by revert i; decide
    intro s t ht
    obtain ⟨v, cy, hv⟩ : ∃ v cy, exec i s = .next (addedToHl s v cy) := by
      rcases hform with h | h | h | h <;> exact ⟨_, _, exec_dad h s⟩
    cases hv.symm.trans ht
    obtain ⟨hrp, hflags, ha, -, hinte, hmem⟩ := addedToHl_spec s v cy
    exact ⟨hrp, ha, hinte, hflags, keepsMemory_of_eq hmem⟩

/-- Writing a pair twice, the second time with what it held before both, leaves the state as it was but for PC. -/
theorem steppedRp_steppedRp_self (s : State) (rp : RegPair) (v : Word) :
    steppedRp (steppedRp s rp v) rp (s.rp rp) = { s with pc := s.pc + 2#16 } := by
  rw [← add_one_add_one]
  cases rp <;> simp [steppedRp, State.setRp, State.setPc, State.rp]

/-- Settles O57: the pair is back after one more and one less, in either order. -/
theorem inxAndDcxAreInverse : Obligations.InxAndDcxAreInverse := by
  intro x hx
  have hform : ∃ rp, x.1.form = .inx rp ∧ x.2.form = .dcx rp := by
    simp only [List.mem_cons, List.not_mem_nil, or_false] at hx
    rcases hx with rfl | rfl | rfl | rfl <;> exact ⟨_, rfl, rfl⟩
  obtain ⟨rp, hinx, hdcx⟩ := hform
  intro s
  constructor
  · refine ⟨_, exec_inx hinx s, (exec_dcx hdcx _).trans (congrArg _ ?_)⟩
    rw [rp_steppedRp, BitVec.add_sub_cancel, steppedRp_steppedRp_self]
  · refine ⟨_, exec_dcx hdcx s, (exec_inx hinx _).trans (congrArg _ ?_)⟩
    rw [rp_steppedRp, BitVec.sub_add_cancel, steppedRp_steppedRp_self]

/-- Settles O60: a pair's value is that of its bytes put together, and a written word is taken apart into them. -/
theorem pairsAreViewsOfRegisters : Obligations.PairsAreViewsOfRegisters := fun s v =>
  ⟨⟨rfl, rfl, rfl, rfl, rfl, rfl, rfl⟩, wordOfBytes_toNat _ _, wordOfBytes_toNat _ _, wordOfBytes_toNat _ _,
    ⟨high_toNat v, low_toNat v⟩, ⟨high_toNat v, low_toNat v⟩, ⟨high_toNat v, low_toNat v⟩,
    fun rp rp' => State.rp_setRp s rp rp' v⟩

end Sys2Proof.Proofs
end

section
/-! Families 44_branch.md and 45_control.md (R190 to R213): the jumps, HLT, EI, DI and the unimplemented opcodes, and how a step as a
transaction ends (R104 to R107). -/

namespace Sys2Proof.Proofs

open Sys2Proof Sys2Proof.Machine Sys2Proof.Claims

/-! A branch, taken or not. -/

section
variable {op : Byte} {s : State}

theorem runHandler_branch_taken (h1 : s.inBounds (s.pc + 1#16)) (h2 : s.inBounds (s.pc + 2#16)) :
    runHandler op (branch true) s = .next { s with pc := targetAt s } :=
  runHandler_eq_next.mpr ⟨.jumped, _, branch_eq_ok.mpr (.inl ⟨rfl, _, target_ok h1 h2, rfl, rfl⟩), rfl⟩

theorem runHandler_branch_low_oob (h1 : ¬ s.inBounds (s.pc + 1#16)) :
    runHandler op (branch true) s = .fault (.outOfBoundsMemoryAccess (s.pc + 1#16) s.pc (some op)) :=
  runHandler_eq_fault.mpr (branch_eq_error.mpr ⟨rfl, target_low_oob h1⟩)

theorem runHandler_branch_high_oob (h1 : s.inBounds (s.pc + 1#16)) (h2 : ¬ s.inBounds (s.pc + 2#16)) :
    runHandler op (branch true) s = .fault (.outOfBoundsMemoryAccess (s.pc + 2#16) s.pc (some op)) :=
  runHandler_eq_fault.mpr (branch_eq_error.mpr ⟨rfl, target_high_oob h1 h2⟩)

theorem runHandler_branch_not_taken : runHandler op (branch false) s = .next { s with pc := s.pc + 3#16 } := rfl

end

/-- Settles O19: JMP is a branch that is always taken. -/
theorem jmpResult : Obligations.JmpResult := fun _ =>
  ⟨⟨rfl, rfl⟩, fun h1 h2 => ⟨runHandler_branch_taken h1 h2, wordOfBytes_toNat _ _⟩, runHandler_branch_low_oob,
    runHandler_branch_high_oob⟩

/-- A conditional jump is a branch that is taken when its condition holds. -/
theorem exec_jcc (cc : Cond) {s : State} {taken : Bool} (h : condHolds s.flags cc = taken) :
    exec cc.jcc s = runHandler (Form.jcc cc).opcode (branch taken) s := by
  subst h
  cases cc <;> rfl

/-- Settles O20: each instruction of the list is the conditional jump of the condition that its test spells out. -/
theorem jccResult : Obligations.JccResult := by
  intro x hx s
  obtain ⟨cc, hinstr, hop, htest⟩ : ∃ cc : Cond, x.1 = cc.jcc ∧ x.2.1 = (Form.jcc cc).opcode ∧ x.2.2 = (condHolds · cc) := by
    simp only [List.mem_cons, List.not_mem_nil, or_false] at hx
    rcases hx with rfl | rfl | rfl | rfl | rfl | rfl | rfl | rfl
    · exact ⟨.nz, rfl, rfl, rfl⟩
    · exact ⟨.z, rfl, rfl, rfl⟩
    · exact ⟨.nc, rfl, rfl, rfl⟩
    · exact ⟨.c, rfl, rfl, rfl⟩
    · exact ⟨.po, rfl, rfl, rfl⟩
    · exact ⟨.pe, rfl, rfl, rfl⟩
    · exact ⟨.p, rfl, rfl, rfl⟩
    · exact ⟨.m, rfl, rfl, rfl⟩
  rw [hinstr, hop, htest]
  refine ⟨by cases cc <;> rfl, fun ht h1 h2 => ?_, fun ht h1 => ?_, fun ht h1 h2 => ?_, fun ht => ?_⟩ <;> rw [exec_jcc cc ht]
  · exact runHandler_branch_taken h1 h2
  · exact runHandler_branch_low_oob h1
  · exact runHandler_branch_high_oob h1 h2
  · exact runHandler_branch_not_taken

/-- Settles O59: the step is a taken branch, and the next one fetches its opcode at the target. -/
theorem jumpTargetIsNotChecked : Obligations.JumpTargetIsNotChecked := by
  intro s hpc hop h1 h2 htarget
  refine ⟨{ s with pc := targetAt s }, ?_, rfl, step_oob htarget⟩
  rw [step_inBounds hpc, hop]
  exact runHandler_branch_taken h1 h2

/-- Settles O22: EI and DI write the latch and go on to the next instruction. -/
theorem eiDiResult : Obligations.EiDiResult := ⟨⟨rfl, rfl⟩, fun _ => ⟨rfl, rfl⟩⟩

theorem exec_unimplemented (op : Byte) (s : State) : exec (.unimplemented op) s = .fault (.unimplementedOpcode op s.pc) := rfl

/-- Settles O23: the unimplemented instruction raises with the opcode it carries, which is the byte at PC. -/
theorem unimplementedOpcodeFails : Obligations.UnimplementedOpcodeFails := by
  refine ⟨rfl, exec_unimplemented, fun op s hpc hop => ?_⟩
  rw [step_inBounds hpc, hop, exec_unimplemented, decodeOpcode_unimplemented_opcode hop]

/-! The frame. -/

/-- Is the class one of the branches or of HLT, EI and DI? -/
def isBranchOrControlForm : Form → Bool
  | .jmp => true
  | .jcc _ => true
  | .hlt => true
  | .ei => true
  | .di => true
  | _ => false

/-- A branch writes PC alone, and so does the engine after it. -/
theorem advance_branch {taken : Bool} {op : Byte} {s u : State} {e : Completion} (h : branch taken op s = .ok (e, u)) :
    ∃ pc, advance s.pc e u = s.setPc pc := by
  rcases branch_eq_ok.mp h with ⟨-, a, -, rfl, rfl⟩ | ⟨-, rfl, rfl⟩
  · exact ⟨a, rfl⟩
  · exact ⟨_, rfl⟩

/-- Branches, HLT, EI and DI write PC and the latch alone, and only EI and DI write the latch. -/
theorem exec_branchOrControl_eq_next {i : Instr} {s t : State} (h : isBranchOrControlForm i.form = true)
    (ht : exec i s = .next t) : ∃ pc inte, t = (s.setInte inte).setPc pc ∧ (i ≠ .ei → i ≠ .di → inte = s.inte) := by
  obtain ⟨e, u, hu, rfl⟩ := exec_eq_next.mp ht
  cases hg : i.form with
  | jmp =>
    rw [hg] at hu
    obtain ⟨pc, hpc⟩ := advance_branch (taken := true) hu
    exact ⟨pc, s.inte, hpc, fun _ _ => rfl⟩
  | jcc cc =>
    rw [hg] at hu
    obtain ⟨pc, hpc⟩ := advance_branch (taken := condHolds s.flags cc) hu
    exact ⟨pc, s.inte, hpc, fun _ _ => rfl⟩
  | hlt =>
    rw [hg] at hu
    cases hu
    exact ⟨s.pc, s.inte, rfl, fun _ _ => rfl⟩
  | ei =>
    rw [hg] at hu
    cases hu
    exact ⟨_, true, rfl, fun hei => absurd (by rw [← i.instr_form, hg]; rfl) hei⟩
  | di =>
    rw [hg] at hu
    cases hu
    exact ⟨_, false, rfl, fun _ hdi => absurd (by rw [← i.instr_form, hg]; rfl) hdi⟩
  | alu | aluImm | inr | dcr | inx | dcx | dad | unimplemented => simp [hg, isBranchOrControlForm] at h

/-- Settles O31: these forms write PC, and the latch for EI and DI. -/
theorem branchAndControlFrame : Obligations.BranchAndControlFrame := by
  intro i hi
  have hform : isBranchOrControlForm i.form = true := by revert i; decide
  intro s t ht
  obtain ⟨pc, inte, rfl, hinte⟩ := exec_branchOrControl_eq_next hform ht
  exact ⟨fun r => by simp, rfl, rfl, hinte, keepsMemory_of_eq rfl⟩

/-! How a transaction ends. -/

/-- The opcode of a taken branch is that of JMP, or of a conditional jump whose condition holds. -/
theorem takenBranch_iff (op : Byte) (f : Flags) : takenBranch op f = true ↔
    (decodeOpcode op).form = .jmp ∨ ∃ cc, (decodeOpcode op).form = .jcc cc ∧ condHolds f cc = true := by
  simp only [decodeOpcode_form_eq_iff (g := .jmp) rfl, decodeOpcode_form_eq_iff (g := .jcc _) rfl]
  constructor
  · simp only [takenBranch, Bool.or_eq_true, Bool.and_eq_true, beq_iff_eq, or_assoc]
    rintro (h | h | h | h | h | h | h | h | h)
    · exact .inl h
    · exact .inr ⟨.nz, h⟩
    · exact .inr ⟨.z, h⟩
    · exact .inr ⟨.nc, h⟩
    · exact .inr ⟨.c, h⟩
    · exact .inr ⟨.po, h⟩
    · exact .inr ⟨.pe, h⟩
    · exact .inr ⟨.p, h⟩
    · exact .inr ⟨.m, h⟩
  · rintro (rfl | ⟨cc, rfl, hcc⟩)
    · rfl
    · cases cc <;> simpa [takenBranch, Form.opcode, Cond.code, condHolds] using hcc

/-- Settles O42: a handler that continues reports its length, and the engine moves PC on by it. -/
theorem continueAdvancesPcByLength : Obligations.ContinueAdvancesPcByLength := by
  intro s t n h
  obtain ⟨-, u, hu, rfl⟩ := transact_eq_completed.mp h
  refine ⟨handlerOf_cont_length hu, ?_⟩
  rw [advance_cont, State.setPc_pc, BitVec.toNat_add, BitVec.toNat_ofNat, Nat.add_mod_mod]

/-- Settles O43: Jumped is how a taken branch ends, and the engine does not move PC again. -/
theorem onlyTakenBranchesJump : Obligations.OnlyTakenBranchesJump := by
  intro s t h
  obtain ⟨-, u, hu, rfl⟩ := transact_eq_completed.mp h
  obtain ⟨-, hjumped, -⟩ := handlerOf_ending hu
  obtain ⟨htaken, -, -, hpc⟩ := hjumped rfl
  exact ⟨(takenBranch_iff _ _).mpr htaken, hpc⟩

/-- A halted transaction ran a HLT inside the buffer, and leaves the state as it was. -/
theorem transact_halted {s t : State} (h : transact s = (.completed .halted, t)) :
    s.inBounds s.pc ∧ s.byteAt s.pc = 0x76 ∧ t = s := by
  obtain ⟨hpc, u, hu, rfl⟩ := transact_eq_completed.mp h
  obtain ⟨hhalted, -, -⟩ := handlerOf_ending hu
  have hform := hhalted.mp rfl
  rw [hform] at hu
  cases hu
  exact ⟨hpc, (decodeOpcode_form_eq_iff rfl _).mp hform, rfl⟩

theorem transact_hlt {s : State} (hpc : s.inBounds s.pc) (hop : s.byteAt s.pc = 0x76) :
    transact s = (.completed .halted, s) :=
  transact_eq_completed.mpr ⟨hpc, s, by rw [hop]; rfl, rfl⟩

theorem exec_hlt (s : State) : exec .hlt s = .next s := rfl

theorem step_hlt {s : State} (hpc : s.inBounds s.pc) (hop : s.byteAt s.pc = 0x76) : step s = .next s := by
  rw [step_inBounds hpc, hop]
  exact exec_hlt s

/-- A state that steps to itself does so any number of times. -/
theorem stepsTo_self {s : State} (h : step s = .next s) (k : Nat) : StepsTo k s s := by
  induction k with
  | zero => rfl
  | succ k ih => exact (runSteps_next h).trans ih

/-- Settles O21: HLT leaves the state as it was, so the next step finds the same HLT. -/
theorem hltResult : Obligations.HltResult := by
  refine ⟨rfl, fun s => ?_⟩
  rcases ht : transact s with ⟨o, t⟩
  refine ⟨exec_hlt s, ⟨?_, fun ⟨hpc, hop⟩ => ?_⟩, ?_⟩
  · rintro rfl
    obtain ⟨hpc, hop, -⟩ := transact_halted ht
    exact ⟨hpc, hop⟩
  · exact congrArg Prod.fst (ht.symm.trans (transact_hlt hpc hop))
  · rintro rfl
    obtain ⟨hpc, hop, rfl⟩ := transact_halted ht
    exact ⟨rfl, stepsTo_self (step_hlt hpc hop)⟩

end Sys2Proof.Proofs
end

section
/-! Family 40_dispatch.md, transactions and runs (R100 to R111). A transaction agrees with a step, and a run ends at a state whose
transaction ends it. -/

namespace Sys2Proof.Proofs

open Sys2Proof Sys2Proof.Machine Sys2Proof.Claims

theorem transact_completed_step {s t : State} {e : Completion} (h : transact s = (.completed e, t)) : step s = .next t := by
  obtain ⟨hpc, u, hu, hadv⟩ := transact_eq_completed.mp h
  rw [step_inBounds hpc, exec_eq_next, encodeOpcode_decodeOpcode]
  exact ⟨e, u, hu, hadv⟩

theorem transact_failed_step {s t : State} {f : Fault} (h : transact s = (.failed f, t)) : t = s ∧ step s = .fault f := by
  obtain ⟨rfl, hfail⟩ := transact_eq_failed.mp h
  refine ⟨rfl, ?_⟩
  rcases hfail with ⟨hpc, rfl⟩ | ⟨hpc, hu⟩
  · exact step_oob hpc
  · rwa [step_inBounds hpc, exec_eq_fault, encodeOpcode_decodeOpcode]

/-- Settles O54: both run the handler of the opcode at PC, and a failed transaction leaves the state as it was. -/
theorem transactionAgreesWithStep : Obligations.TransactionAgreesWithStep := by
  intro s
  rcases h : transact s with ⟨e | f, t⟩
  · exact transact_completed_step h
  · obtain ⟨rfl, hstep⟩ := transact_failed_step h
    exact ⟨hstep, rfl, h⟩

/-- The outcome of the transaction that ends a run for a reason (R111). -/
def endOutcome : TerminationReason → StepOutcome
  | .halted => .completed .halted
  | .failed f => .failed f

/-- A transaction ends a run, in the state it began in, or goes on. -/
theorem transact_cases (s : State) : (∃ reason, transact s = (endOutcome reason, s)) ∨
    ∃ e t, e ≠ .halted ∧ transact s = (.completed e, t) := by
  rcases h : transact s with ⟨e | f, t⟩
  · by_cases he : e = .halted
    · subst he
      obtain ⟨-, -, rfl⟩ := transact_halted h
      exact .inl ⟨.halted, rfl⟩
    · exact .inr ⟨e, t, he, rfl⟩
  · obtain ⟨rfl, -⟩ := transact_failed_step h
    exact .inl ⟨.failed f, rfl⟩

theorem run_of_ends {s t : State} {reason : TerminationReason} (h : transact s = (endOutcome reason, t)) (n : Nat) :
    run (n + 1) s = (some reason, t) := by
  cases reason <;> simp only [run, h, endOutcome]

theorem run_of_continues {s t : State} {e : Completion} (he : e ≠ .halted) (h : transact s = (.completed e, t)) (n : Nat) :
    run (n + 1) s = run n t := by
  cases e with
  | halted => exact absurd rfl he
  | cont | jumped => simp only [run, h]

theorem stepsTo_succ {s t u : State} {k : Nat} (h : step s = .next t) (hk : StepsTo k t u) : StepsTo (k + 1) s u :=
  (runSteps_next h).trans hk

/-- A run that ends has stepped to a state whose transaction ends it. -/
theorem run_ends_reaches {n : Nat} {s t : State} {reason : TerminationReason} (h : run n s = (some reason, t)) :
    (∃ k, k < n ∧ StepsTo k s t) ∧ transact t = (endOutcome reason, t) := by
  induction n generalizing s with
  | zero => cases h
  | succ n ih =>
    rcases transact_cases s with ⟨reason', hs⟩ | ⟨e, u, he, hs⟩
    · rw [run_of_ends hs] at h
      cases h
      exact ⟨⟨0, n.succ_pos, rfl⟩, hs⟩
    · rw [run_of_continues he hs] at h
      obtain ⟨⟨k, hk, hu⟩, ht⟩ := ih h
      exact ⟨⟨k + 1, Nat.succ_lt_succ hk, stepsTo_succ (transact_completed_step hs) hu⟩, ht⟩

/-- A run cut short has made as many steps as it had fuel. -/
theorem run_none_stepsTo {n : Nat} {s t : State} (h : run n s = (none, t)) : StepsTo n s t := by
  induction n generalizing s with
  | zero =>
    cases h
    rfl
  | succ n ih =>
    rcases transact_cases s with ⟨reason, hs⟩ | ⟨e, u, he, hs⟩
    · rw [run_of_ends hs] at h
      cases h
    · rw [run_of_continues he hs] at h
      exact stepsTo_succ (transact_completed_step hs) (ih h)

/-- More fuel does not change how a run ended. -/
theorem run_ends_add {n : Nat} {s t : State} {reason : TerminationReason} (h : run n s = (some reason, t)) (more : Nat) :
    run (n + more) s = (some reason, t) := by
  induction n generalizing s with
  | zero => cases h
  | succ n ih =>
    rw [Nat.succ_add]
    rcases transact_cases s with ⟨reason', hs⟩ | ⟨e, u, he, hs⟩
    · rw [run_of_ends hs] at h ⊢
      exact h
    · rw [run_of_continues he hs] at h ⊢
      exact ih h

/-- Where steps lead from a state to one whose PC is inside the buffer, so is the PC they start from. -/
theorem inBounds_of_stepsTo {k : Nat} {s t : State} (h : StepsTo k s t) (ht : t.inBounds t.pc) : s.inBounds s.pc := by
  cases k with
  | zero =>
    cases h
    exact ht
  | succ k =>
    by_contra hpc
    cases (runSteps_fault (k := k) (step_oob hpc)).symm.trans h

/-- Settles O55: by induction on the fuel, a run ends at a state whose transaction ends it, and that is a HLT or a failing step. -/
theorem runEndsAtHaltOrFailure : Obligations.RunEndsAtHaltOrFailure := by
  intro fuel s t
  refine ⟨fun h => ?_, fun f h => ?_, run_none_stepsTo, fun reason more h => run_ends_add h more⟩
  · obtain ⟨⟨k, hk, hsteps⟩, ht⟩ := run_ends_reaches h
    obtain ⟨hpc, hop, -⟩ := transact_halted ht
    exact ⟨⟨k, hk, hsteps⟩, inBounds_of_stepsTo hsteps hpc, hpc, hop⟩
  · obtain ⟨hsteps, ht⟩ := run_ends_reaches h
    obtain ⟨-, hstep⟩ := transact_failed_step ht
    exact ⟨hsteps, hstep⟩

end Sys2Proof.Proofs
end

section
/-! Families 20_memory.md and 70_reset_and_hazards.md: the canonical form of memory, what a step and a load do to it, and
construction. -/

namespace Sys2Proof.Proofs

open Sys2Proof Sys2Proof.Machine Sys2Proof.Claims

/-! Canonical memories. -/

/-- Settles O47: the laws of `Memory.write`. -/
theorem memoryReadsLastWrite : Obligations.MemoryReadsLastWrite := fun m a v hm ha =>
  ⟨Memory.read_write_self hm a v, fun _ hb => Memory.read_write_ne m v hb, Memory.wf_write hm ha v⟩

/-- A listed cell of rising cells is what its address reads. -/
theorem cellsRead_of_mem {cells : List Host.Cell} (hr : CellsRise cells) {x : Host.Cell} (hx : x ∈ cells) :
    cellsRead cells x.1 = x.2 := by
  induction cells with
  | nil => cases hx
  | cons y rest ih =>
    obtain ⟨hy, hrest⟩ := List.pairwise_cons.mp hr
    rcases List.mem_cons.mp hx with rfl | hx
    · simp [cellsRead]
    · have hne : x.1 ≠ y.1 := (hy x hx).ne'
      simp only [cellsRead, hne, if_false]
      exact ih hrest hx

/-- What reads as no unlisted byte is a listed cell. -/
theorem mem_of_cellsRead {cells : List Host.Cell} {a : Nat} (h : cellsRead cells a ≠ Config.unlistedByte) :
    (a, cellsRead cells a) ∈ cells := by
  induction cells with
  | nil => exact absurd rfl h
  | cons y rest ih =>
    by_cases ha : a = y.1
    · simp [cellsRead, ha]
    · simp only [cellsRead, ha, if_false] at h ⊢
      exact List.mem_cons_of_mem _ (ih h)

/-- The cells of a canonical memory are the bytes it reads that are not the unlisted one. -/
theorem mem_cells_iff {m : Memory} (hm : m.wf) (x : Host.Cell) :
    x ∈ m.cells ↔ m.read x.1 = x.2 ∧ x.2 ≠ Config.unlistedByte := by
  obtain ⟨-, hrise, hlisted⟩ := hm
  constructor
  · exact fun hx => ⟨cellsRead_of_mem hrise hx, (hlisted x hx).2⟩
  · rintro ⟨hread, hne⟩
    have hmem := mem_of_cellsRead (cells := m.cells) (a := x.1) (by rwa [← hread] at hne)
    rwa [show cellsRead m.cells x.1 = x.2 from hread] at hmem

/-- Settles O48: the two lists of cells have the same members, and a list of rising addresses is fixed by its members. -/
theorem canonicalMemoriesAreEqual : Obligations.CanonicalMemoriesAreEqual := by
  intro m m' hm hm' hsize hread
  have hmem (x : Host.Cell) : x ∈ m.cells ↔ x ∈ m'.cells := by
    rw [mem_cells_iff hm, mem_cells_iff hm', hread]
  have hnodup {c : List Host.Cell} (hc : CellsRise c) : c.Nodup := hc.imp fun h heq => by simp [heq] at h
  obtain ⟨-, hrise, -⟩ := hm
  obtain ⟨-, hrise', -⟩ := hm'
  have hperm : m.cells.Perm m'.cells := (List.perm_ext_iff_of_nodup (hnodup hrise) (hnodup hrise')).mpr hmem
  have hcells : m.cells = m'.cells :=
    hperm.eq_of_pairwise (fun x y _ _ hxy hyx => absurd hxy hyx.asymm) hrise hrise'
  rw [show m = ⟨m.size, m.cells⟩ from rfl, hsize, hcells]

/-! Reset and construction. -/

/-- Settles O45: nothing is listed, and 65536 is a legal size. -/
theorem resetIsCanonical : Obligations.ResetIsCanonical :=
  ⟨by decide, List.Pairwise.nil, fun _ hx => absurd hx List.not_mem_nil⟩

/-- Settles O46: the default launch values, over a buffer that lists nothing. -/
theorem resetValues : Obligations.ResetValues :=
  ⟨fun r => by cases r <;> rfl, rfl, rfl, rfl, rfl, rfl, fun _ => rfl⟩

/-- Settles O49: the buffer is that of the image, and the launch values are written as given. -/
theorem constructionLoadsTheImage : Obligations.ConstructionLoadsTheImage := fun _ pc v h1 h2 =>
  ⟨rfl, fun _ h => Memory.read_ofImage h, State.construct_wf h1 h2 pc v, rfl, ⟨rfl, rfl, rfl, rfl, rfl, rfl, rfl, rfl⟩, rfl, rfl⟩

/-! What a step does to memory. -/

/-- What a step that answers can have done to memory: nothing, or the one store at HL of an opcode 0x34 or 0x35. -/
theorem step_memory {s t : State} (h : step s = .next t) :
    t.mem = s.mem ∨ ((s.byteAt s.pc = 0x34 ∨ s.byteAt s.pc = 0x35) ∧ s.inBounds (addrM s) ∧
      ∃ v, t.mem = s.mem.write (addrM s).toNat v) := by
  obtain ⟨-, hexec⟩ := step_eq_next.mp h
  obtain ⟨e, u, hu, rfl⟩ := exec_eq_next.mp hexec
  rw [advance_mem]
  refine (handlerOf_memory hu).imp id fun ⟨hform, hstore⟩ => ⟨?_, hstore⟩
  exact hform.imp (decodeOpcode_form_eq_iff rfl _).mp (decodeOpcode_form_eq_iff rfl _).mp

/-- Settles O44: a step stores nothing, or one byte inside the buffer. -/
theorem stepKeepsMemoryCanonical : Obligations.StepKeepsMemoryCanonical := by
  intro s t hs ht
  rcases step_memory ht with hmem | ⟨-, hb, v, hmem⟩
  · exact ⟨by rwa [State.Inv, hmem], by rw [hmem]⟩
  · exact ⟨by rw [State.Inv, hmem]; exact Memory.wf_write hs ((s.inBounds_iff _).mp hb) v, by rw [hmem, Memory.size_write]⟩

/-- Settles O51: the one store of a step is at HL, and every other address reads as before. -/
theorem onlyIncrementsOfMemoryStore : Obligations.OnlyIncrementsOfMemoryStore := by
  intro s t a ht hne
  rcases step_memory ht with hmem | ⟨hop, -, v, hmem⟩
  · exact absurd (by rw [hmem]) hne
  · refine ⟨hop, ?_⟩
    by_contra ha
    exact hne (by rw [hmem, Memory.read_write_ne _ _ ha])

/-- Settles O58: the byte that INR M stored is the one that the fetch reads. -/
theorem storesReachTheNextFetch : Obligations.StoresReachTheNextFetch := by
  intro s t u hs hop ht hmem hpc
  obtain ⟨-, hexec⟩ := step_eq_next.mp ht
  rw [hop] at hexec
  obtain ⟨hb, -⟩ := exec_storing_eq_next (i := .inrM) (by simp) hexec
  cases (exec_inrM hb).symm.trans hexec
  have hu : u.inBounds u.pc := by rw [hpc, State.inBounds, hmem]; exact hb
  have hbyte : u.byteAt u.pc = s.byteAt (addrM s) + 1 := by
    rw [hpc, State.byteAt, hmem]
    exact steppedByte_byteAt hs _
  rw [step_inBounds hu, hbyte]

/-! What a load does. -/

theorem byteAt_setByte_ne (s : State) {a b : Word} (v : Byte) (h : b ≠ a) : (s.setByte a v).byteAt b = s.byteAt b :=
  Memory.read_write_ne s.mem v fun hab => h (BitVec.eq_of_toNat_eq hab)

theorem byteAt_setByte_self {s : State} (hs : s.Inv) (a : Word) (v : Byte) : (s.setByte a v).byteAt a = v :=
  Memory.read_write_self hs a.toNat v

theorem setByte_inv {s : State} (hs : s.Inv) {a : Word} (ha : s.inBounds a) (v : Byte) : (s.setByte a v).Inv :=
  Memory.wf_write hs ((s.inBounds_iff a).mp ha) v

/-- Three bytes loaded inside a canonical buffer at distinct addresses read back, and change neither PC nor MEM_SIZE. -/
theorem loadBytes_three {s : State} (hs : s.Inv) {a : Word} (h0 : s.inBounds a) (h1 : s.inBounds (a + 1#16))
    (h2 : s.inBounds (a + 2#16)) (v0 v1 v2 : Byte) :
    let t := s.loadBytes a [v0, v1, v2]
    t.byteAt a = v0 ∧ t.byteAt (a + 1#16) = v1 ∧ t.byteAt (a + 2#16) = v2 ∧ t.pc = s.pc ∧ t.mem.size = s.mem.size := by
  have ht : s.loadBytes a [v0, v1, v2] = ((s.setByte a v0).setByte (a + 1#16) v1).setByte (a + 2#16) v2 := by
    have hload : s.loadBytes a [v0, v1, v2] = ((s.load a v0).load (a + 1#16) v1).load (a + 1#16 + 1#16) v2 := rfl
    rw [hload, add_one_add_one, State.load_ok h0, State.load_ok (s := s.setByte a v0) h1,
      State.load_ok (s := (s.setByte a v0).setByte (a + 1#16) v1) h2]
  have h01 : a ≠ a + 1#16 := by bv_omega
  have h02 : a ≠ a + 2#16 := by bv_omega
  have h12 : a + 1#16 ≠ a + 2#16 := by bv_omega
  have hs0 := setByte_inv hs h0 v0
  have hs1 := setByte_inv hs0 h1 v1
  rw [ht]
  refine ⟨?_, ?_, byteAt_setByte_self hs1 _ v2, rfl, rfl⟩
  · rw [byteAt_setByte_ne _ _ h02, byteAt_setByte_ne _ _ h01, byteAt_setByte_self hs]
  · rw [byteAt_setByte_ne _ _ h12, byteAt_setByte_self hs0]

/-- Settles O50: the step fetches the first loaded byte, and its operands are the next two. -/
theorem loadedInstructionRuns : Obligations.LoadedInstructionRuns := by
  intro s nbits w hs h0 h1 h2 t
  obtain ⟨hb0, hb1, hb2, hpc, hsize⟩ := loadBytes_three hs h0 h1 h2 (BitVec.ofNat 8 (w % 2 ^ nbits))
    (BitVec.ofNat 8 (w % 2 ^ nbits / 2 ^ 8)) (BitVec.ofNat 8 (w % 2 ^ nbits / 2 ^ 16))
  have hpc : t.pc = s.pc := hpc
  have ht : t.inBounds t.pc := by
    rw [hpc, State.inBounds_iff]
    exact hsize.symm ▸ (s.inBounds_iff _).mp h0
  refine ⟨?_, hpc.symm ▸ hb1, hpc.symm ▸ hb2, hpc, hsize⟩
  rw [step_inBounds ht, hpc]
  exact congrArg (fun op => exec (decodeOpcode op) t) hb0

end Sys2Proof.Proofs
end

section
/-! Family 60_exceptions.md (R230 to R236): when a step fails and with which record. Said once of the handlers, by the class, and then
carried over to the opcode values. -/

namespace Sys2Proof.Proofs

open Sys2Proof Sys2Proof.Machine Sys2Proof.Claims

/-! What a class needs of memory. -/

/-- Is the class the unimplemented one (R213)? -/
@[simp] def isUnimplementedForm : Form → Bool
  | .unimplemented _ => true
  | _ => false

/-- Does the class take an immediate d8 (R77)? -/
@[simp] def isImmediateForm : Form → Bool
  | .aluImm _ => true
  | _ => false

/-- Is the class a branch that is taken (R190)? -/
@[simp] def isTakenForm (f : Flags) : Form → Bool
  | .jmp => true
  | .jcc cc => condHolds f cc
  | _ => false

/-- Does the class name M (R130)? -/
@[simp] def usesM : Form → Bool
  | .alu _ .m => true
  | .inr .m => true
  | .dcr .m => true
  | _ => false

/-- When a handler fails, and with which record (R231, R232, R234). -/
theorem handlerOf_eq_error {g : Form} {op : Byte} {s : State} {f : Fault} : handlerOf g op s = .error f ↔
    (isUnimplementedForm g = true ∧ .unimplementedOpcode op s.pc = f) ∨
    ((isImmediateForm g = true ∨ isTakenForm s.flags g = true) ∧ ¬ s.inBounds (s.pc + 1#16) ∧
      .outOfBoundsMemoryAccess (s.pc + 1#16) s.pc (some op) = f) ∨
    (isTakenForm s.flags g = true ∧ s.inBounds (s.pc + 1#16) ∧ ¬ s.inBounds (s.pc + 2#16) ∧
      .outOfBoundsMemoryAccess (s.pc + 2#16) s.pc (some op) = f) ∨
    (usesM g = true ∧ ¬ s.inBounds (addrM s) ∧ .outOfBoundsMemoryAccess (addrM s) s.pc (some op) = f) := by
  cases g with
  | alu g o => cases o <;> simp [handlerOf, aluHandler_eq_error, memRead_eq_error]
  | aluImm g => simp [handlerOf, immHandler_eq_error, immediate_eq, memRead_eq_error]
  | inr o => cases o <;> simp [handlerOf, inrHandler, incDecHandler_eq_error]
  | dcr o => cases o <;> simp [handlerOf, dcrHandler, incDecHandler_eq_error]
  | jmp => simp [handlerOf, jmpHandler, branch_eq_error, target_eq_error]
  | jcc cc => cases h : condHolds s.flags cc <;> simp [handlerOf, jccHandler, branch_eq_error, target_eq_error, h]
  | unimplemented o => simp [handlerOf, unimplementedHandler, raiseUnimplemented]
  | inx | dcx | dad | hlt | ei | di => simp [handlerOf, inxHandler, dcxHandler, dadHandler, hltHandler, eiHandler, diHandler]

/-! The same classes as opcode values. -/

theorem isUnimplementedForm_decodeOpcode : ∀ op : Byte,
    isUnimplementedForm (decodeOpcode op).form = true ↔ op ∉ implementedOpcodes := by decide

theorem isImmediateForm_decodeOpcode : ∀ op : Byte,
    isImmediateForm (decodeOpcode op).form = true ↔ op ∈ ([0xC6, 0xCE, 0xD6] : List Byte) := by decide

theorem usesM_decodeOpcode : ∀ op : Byte,
    usesM (decodeOpcode op).form = true ↔ op ∈ ([0x86, 0x8E, 0x96, 0x9E, 0x34, 0x35] : List Byte) := by decide

theorem isTakenForm_iff (f : Flags) (g : Form) :
    isTakenForm f g = true ↔ g = .jmp ∨ ∃ cc, g = .jcc cc ∧ condHolds f cc = true := by
  cases g <;> simp [isTakenForm]

theorem isTakenForm_decodeOpcode (f : Flags) (op : Byte) :
    isTakenForm f (decodeOpcode op).form = true ↔ takenBranch op f = true := by
  rw [isTakenForm_iff, takenBranch_iff]

/-- Settles O52: outside the buffer the fetch fails, and inside it the handler of the opcode does. -/
theorem stepFailsExactlyWhen : Obligations.StepFailsExactlyWhen := by
  intro s f
  by_cases hpc : s.inBounds s.pc
  · rw [step_inBounds hpc, exec_eq_fault, encodeOpcode_decodeOpcode, handlerOf_eq_error, isUnimplementedForm_decodeOpcode,
      isImmediateForm_decodeOpcode, isTakenForm_decodeOpcode, usesM_decodeOpcode]
    simp [hpc, eq_comm (a := f)]
  · simp [step_oob hpc, hpc, eq_comm (a := f)]

/-- Settles O53: nothing is refused, and none of the reasons to fail applies. -/
theorem implementedInstructionsRun : Obligations.ImplementedInstructionsRun := by
  refine ⟨step_ne_refused, fun s hpc h1 h2 hm hop => ?_⟩
  cases h : step s with
  | next t => exact ⟨t, rfl⟩
  | fault f => simp [stepFailsExactlyWhen s f, hpc, h1, h2, hm, hop] at h
  | refused r => exact absurd h (step_ne_refused s r)

end Sys2Proof.Proofs
end
